-- ==== Sys2Proof/Word.lean ====
section
/-! DEFINITION. The two word types of the block: 64-bit data words and 32-bit command words (R6, R9, R53). -/

namespace Sys2Proof

/-- A 64-bit word of a data channel or of an internal RAM.  R9: the word and the binary64 value it holds are the
same thing (bit 63 the sign, bits 62:52 the biased exponent, bits 51:0 the fraction). -/
abbrev Word := BitVec 64

/-- A 32-bit word of the command channel (R6 `CMD_WIDTH`, R70). -/
abbrev CmdWord := BitVec 32

end Sys2Proof
end

