-- ==== Sys2Proof/Config.lean ====
section
/-! DEFINITION. What is fixed for the block (R6), its open parameters (R7) and the free values of the event channel
(R186).  Nothing here is state (R39). -/

namespace Sys2Proof.Config

/-- R6 `MAX_COEFFS_LEN`: the largest number of coefficients.  R8: 512 binds, not 63. -/
def maxCoeffsLen : Nat := 512

/-- R6 `MAX_INPUT_LEN`: the largest number of samples in one block. -/
def maxInputLen : Nat := 512

/-- R6 `HIST_CAP` = `MAX_COEFFS_LEN - 1 + MAX_INPUT_LEN`: the number of words of `HIST`. -/
def histCap : Nat := 1023

/-- R6 `DEFAULT_LEN`: the length of the filter after reset. -/
def defaultLen : Nat := 63

/-- OPEN parameter behind `EVT_FIFO_DEPTH` (R7, D15): how many records beyond the first the event channel holds. -/
opaque evtFifoSpare : Nat

/-- R7 `EVT_FIFO_DEPTH`: any integer ≥ 1. -/
def evtFifoDepth : Nat := evtFifoSpare + 1

/-- FREE VALUE (R186, I9; log entry 4).  How many events the host has taken from the event channel since the model
last looked, at the `n`-th event the block offers.  The spec does not fix when the host takes events. -/
opaque hostTakes : Nat → Nat

/-- FREE VALUE (R186, D15, I9; log entry 4).  Whether the block finds the event channel full at the `n`-th event it
offers, for all the model can tell: "Whether the channel is full depends on when the host takes events, which the model
does not fix."  With it every offered event, the first after reset too, is admitted both delivered and dropped; a claim
of delivery takes `evtFull n = false` as its premise on the host. -/
opaque evtFull : Nat → Bool

/-- OPEN parameter `LATENCY` (R7, R222): cycles from a command's acceptance to its completion, by the command word and
the filter length.  "No rule of the model depends on it": no definition of the model reads it. -/
opaque latency : CmdWord → Nat → Nat

end Sys2Proof.Config
end

