-- ==== Sys2Proof/Syntax.lean ====
section
/-! DEFINITION. The seven commands of FIRE-1, one constructor per row of spec/opcode_table.json (R72). -/

namespace Sys2Proof

/-- A decoded command.  `count` is the command's COUNT field, an exact natural number (R13, R73); the data words of a
command travel on the data channels and are no part of it (R71). -/
inductive Instr where
  /-- R160: do nothing. -/
  | nop
  /-- R101: replace the filter by the single tap on the data-in channel. -/
  | setScalar
  /-- R102: replace the filter by `count` taps. -/
  | setBulk (count : Nat)
  /-- R120: filter one block of `count` samples. -/
  | processBlock (count : Nat)
  /-- R161: read the coefficients in use. -/
  | getCoefs
  /-- R162: read the whole history buffer. -/
  | getHistory
  /-- R163: read the status word and the diagnostic counter. -/
  | getStatus
  deriving DecidableEq, Repr

end Sys2Proof
end

