-- ==== Sys2Proof/WellFormed.lean ====
section
/-! DEFINITION. Which terms of `Instr` stand for a command word: COUNT has 16 bits (R70, R73). -/

namespace Sys2Proof

/-- R73: "`COUNT` is an unsigned 16-bit integer"; every value 0 to 65535 is encodable, above the limit 512 too. -/
def Instr.wellFormed : Instr → Bool
  | .setBulk n => decide (n < 65536)
  | .processBlock n => decide (n < 65536)
  | .nop => true
  | .setScalar => true
  | .getCoefs => true
  | .getHistory => true
  | .getStatus => true

end Sys2Proof
end

