-- ==== Sys2Proof/Decode.lean ====
section
/-! DEFINITION. Command words to commands (R70 to R79) and back. -/

namespace Sys2Proof

/-- Why decode rejects a command word, in the order of the checks of R76. -/
inductive DecodeReject where
  /-- R76, R77: `OPC` is none of the seven defined values (code 4). -/
  | illegalOpcode
  /-- R74, R76: `RSV ≠ 0` with a defined opcode (code 5). -/
  | rsvNonzero
  /-- R75, R76: `COUNT ≠ 0` with an opcode that has no count (code 5). -/
  | countNonzero
  deriving DecidableEq, Repr

/-- R70: `OPC = w[31:24]`. -/
def opcField (w : CmdWord) : BitVec 8 := w.extractLsb' 24 8

/-- R70: `RSV = w[23:16]`. -/
def rsvField (w : CmdWord) : BitVec 8 := w.extractLsb' 16 8

/-- R70, R73: `COUNT = w[15:0]`, unsigned, not scaled and not offset. -/
def countField (w : CmdWord) : Nat := (w.extractLsb' 0 16).toNat

/-- R72: the command an opcode selects, with the count for the two opcodes that have one; `none` for the 249 illegal
values of R77. -/
def commandOf (opc : BitVec 8) (cnt : Nat) : Option Instr :=
  if opc = 0x00 then some .nop
  else if opc = 0x01 then some .setScalar
  else if opc = 0x02 then some (.setBulk cnt)
  else if opc = 0x03 then some (.processBlock cnt)
  else if opc = 0x10 then some .getCoefs
  else if opc = 0x11 then some .getHistory
  else if opc = 0x12 then some .getStatus
  else none

/-- R72, R75: the commands whose COUNT field is not reserved. -/
def Instr.hasCount : Instr → Bool
  | .setBulk _ => true
  | .processBlock _ => true
  | .nop => false
  | .setScalar => false
  | .getCoefs => false
  | .getHistory => false
  | .getStatus => false

/-- R76: decode, total on the 2^32 command words.  "The checks run in this order and the first that fails decides the
result": opcode, then `RSV`, then a reserved `COUNT`. -/
def decode (w : CmdWord) : Except DecodeReject Instr :=
  match commandOf (opcField w) (countField w) with
  | none => .error .illegalOpcode
  | some i =>
    if rsvField w ≠ 0 then .error .rsvNonzero
    else if i.hasCount = false ∧ countField w ≠ 0 then .error .countNonzero
    else .ok i

/-- R72: the opcode of each command. -/
def Instr.opcode : Instr → BitVec 8
  | .nop => 0x00
  | .setScalar => 0x01
  | .setBulk _ => 0x02
  | .processBlock _ => 0x03
  | .getCoefs => 0x10
  | .getHistory => 0x11
  | .getStatus => 0x12

/-- R72, R75: the value of the COUNT field of each command, 0 where it is reserved. -/
def Instr.countValue : Instr → Nat
  | .setBulk n => n
  | .processBlock n => n
  | .nop => 0
  | .setScalar => 0
  | .getCoefs => 0
  | .getHistory => 0
  | .getStatus => 0

/-- R70: the command word `{OPC, RSV = 0, COUNT}`. -/
def encode (i : Instr) : CmdWord := i.opcode ++ (0 : BitVec 8) ++ BitVec.ofNat 16 i.countValue

/-- R71, R72: `in(OPC, COUNT)`, how many words a command that decodes takes from the data-in channel, "the same
whether the command then completes normally or is rejected for its count". -/
def Instr.dataInCount : Instr → Nat
  | .setScalar => 1
  | .setBulk n => n
  | .processBlock n => n
  | .nop => 0
  | .getCoefs => 0
  | .getHistory => 0
  | .getStatus => 0

/-- The `nbits` low bits of `w` hold the command word, numbered as spec/opcode_table.json numbers them. -/
def tableCmdWord (nbits w : Nat) : CmdWord := BitVec.ofNat 32 (w % 2 ^ nbits)

/-- The instruction this decoder reads from the table's bits `w` (none where it rejects). -/
def decodeTableWord (nbits w : Nat) : Option Instr :=
  match decode (tableCmdWord nbits w) with
  | .ok i => some i
  | .error _ => none

/-- Data words number `0 .. k-1` that follow the command word in the table's bits: word `j` is bits `32+64j` to
`95+64j`.  With `nbits = 32` they are all 0. -/
def tableDataWords (nbits w : Nat) (k : Nat) : List Word :=
  (List.range k).map fun j => BitVec.ofNat 64 ((w % 2 ^ nbits) >>> (32 + 64 * j))

end Sys2Proof
end

