-- ==== Sys2Proof/Machine/Memory.lean ====
section
/-! DEFINITION. The word-indexed RAMs `COEF` and `HIST` (R51) as lists of (index, word) pairs in one canonical form:
indices strictly rising, none beyond the RAM's size, no entry equal to what an unlisted index reads as. -/

namespace Sys2Proof.Machine

/-- A word-indexed RAM.  R53, R54: every access is a whole 64-bit word, "No byte addresses exist", so a cell is a word
and not a byte (log entry 2). -/
abbrev Memory := List (Nat × Word)

/-- What an index that is not listed reads as: `+0.0`, the reset contents R36 gives `HIST[0..1022]` and
`COEF[63..511]`. -/
def Memory.unlisted : Word := 0

/-- R10: `RAM[a]`. -/
def Memory.read : Memory → Nat → Word
  | [], _ => Memory.unlisted
  | (k, v) :: m, a => if k = a then v else Memory.read m a

/-- R10: `RAM[a] <- v`, keeping the canonical form. -/
def Memory.write : Memory → Nat → Word → Memory
  | [], a, v => if v = Memory.unlisted then [] else [(a, v)]
  | (k, w) :: m, a, v =>
    if k < a then (k, w) :: Memory.write m a v
    else if k = a then (if v = Memory.unlisted then m else (a, v) :: m)
    else if v = Memory.unlisted then (k, w) :: m
    else (a, v) :: (k, w) :: m

/-- `RAM[base] <- v₀`, `RAM[base+1] <- v₁`, … in ascending index order. -/
def Memory.writeFrom (m : Memory) (base : Nat) : List Word → Memory
  | [] => m
  | v :: vs => Memory.writeFrom (Memory.write m base v) (base + 1) vs

/-- The RAM that holds the given words from index `base` on and `+0.0` elsewhere. -/
def Memory.ofWords (base : Nat) : List Word → Memory
  | [] => []
  | v :: vs =>
    if v = Memory.unlisted then Memory.ofWords (base + 1) vs else (base, v) :: Memory.ofWords (base + 1) vs

/-- The canonical form from index `lo` on, below `size`. -/
def Memory.wfFrom (lo size : Nat) : Memory → Bool
  | [] => true
  | (k, v) :: m => decide (lo ≤ k) && decide (k < size) && decide (v ≠ Memory.unlisted) && Memory.wfFrom (k + 1) size m

/-- The canonical form of a RAM of `size` words. -/
def Memory.wf (size : Nat) (m : Memory) : Bool := Memory.wfFrom 0 size m

end Sys2Proof.Machine
end

