-- ==== Sys2Proof/Machine/Float.lean ====
section
/-! DEFINITION. Binary64 arithmetic (R9, R12, R138 to R142): operands become exact integers, the exact result is
computed, and one function narrows it to the nearest binary64, ties to even. -/

namespace Sys2Proof.Machine

/-- R9: bit 63, the sign. -/
def signBit (v : Word) : Bool := decide (2 ^ 63 ≤ v.toNat)

/-- R9: bits 62:52, the biased exponent. -/
def expField (v : Word) : Nat := v.toNat / 2 ^ 52 % 2 ^ 11

/-- R9: bits 51:0, the fraction. -/
def fracField (v : Word) : Nat := v.toNat % 2 ^ 52

/-- IEEE 754: exponent field all ones, fraction nonzero. -/
def isNaN64 (v : Word) : Bool := decide (expField v = 2047) && decide (fracField v ≠ 0)

/-- IEEE 754: exponent field all ones, fraction zero. -/
def isInf64 (v : Word) : Bool := decide (expField v = 2047) && decide (fracField v = 0)

/-- Neither a NaN nor an infinity. -/
def isFinite64 (v : Word) : Bool := decide (expField v ≠ 2047)

/-- `+0.0` or `-0.0`. -/
def isZero64 (v : Word) : Bool := decide (expField v = 0) && decide (fracField v = 0)

/-- R12, R142: `v[62:52] = 0` and `v[51:0] ≠ 0`, of either sign. -/
def isSubnormal64 (v : Word) : Bool := decide (expField v = 0) && decide (fracField v ≠ 0)

/-- R12: the word `+0.0`. -/
def posZero : Word := 0x0000000000000000#64

/-- The word `-0.0` (R83, R141). -/
def negZero : Word := 0x8000000000000000#64

/-- R139: the NaN that every NaN result delivers. -/
def canonicalNaN : Word := 0x7FF8000000000000#64

/-- The exponent and fraction bits of an infinity. -/
def infBits : Nat := 2047 * 2 ^ 52

/-- The magnitude of a finite word, in units of 2^-1074 (the smallest subnormal): always a natural number.  R140: a
subnormal counts at its exact value. -/
def magUnits (v : Word) : Nat :=
  if expField v = 0 then fracField v else (2 ^ 52 + fracField v) * 2 ^ (expField v - 1)

/-- The value of a finite word, in units of 2^-1074. -/
def valueUnits (v : Word) : Int := if signBit v then -(magUnits v : Int) else (magUnits v : Int)

/-- `m / k` rounded to the nearest integer, ties to even. -/
def roundDiv (m k : Nat) : Nat :=
  if k < 2 * (m % k) ∨ (2 * (m % k) = k ∧ m / k % 2 = 1) then m / k + 1 else m / k

/-- How many low bits of the units of `num / den` a 53-bit significand cannot hold (0 in the subnormal range and in
the first binade above it). -/
def droppedBits (num den : Nat) : Nat := (num / den).log2 + 1 - 53

/-- R12, R138, R140: bits 62:0 of the binary64 nearest to `(num / den)` units of 2^-1074, ties to even, with gradual
underflow, and infinity on overflow.  The significand's hidden bit, and a carry out of the rounding, add themselves to
the exponent field. -/
def nearestBits (num den : Nat) : Nat :=
  min (droppedBits num den * 2 ^ 52 + roundDiv num (den * 2 ^ droppedBits num den)) infBits

/-- A word from its sign and its bits 62:0. -/
def packWord (neg : Bool) (bits : Nat) : Word := BitVec.ofNat 64 (if neg then 2 ^ 63 + bits else bits)

/-- R12 `fmul64`, the binary64 product: NaN operands and `inf * 0` give the canonical NaN (R138, R139); the exact
product of two finite words is in units of 2^-2148. -/
def fmul64 (a b : Word) : Word :=
  if isNaN64 a || isNaN64 b then canonicalNaN
  else if isInf64 a || isInf64 b then
    if isZero64 a || isZero64 b then canonicalNaN else packWord (signBit a != signBit b) infBits
  else packWord (signBit a != signBit b) (nearestBits (magUnits a * magUnits b) (2 ^ 1074))

/-- R12 `fadd64`, the binary64 sum: NaN operands and `inf + (-inf)` give the canonical NaN (R138, R139); an exact zero
sum is `-0.0` only when both addends are negative zeros (R141). -/
def fadd64 (a b : Word) : Word :=
  if isNaN64 a || isNaN64 b then canonicalNaN
  else if isInf64 a then
    if isInf64 b && (signBit a != signBit b) then canonicalNaN else a
  else if isInf64 b then b
  else if valueUnits a + valueUnits b = 0 then packWord (signBit a && signBit b) 0
  else packWord (decide (valueUnits a + valueUnits b < 0)) (nearestBits (valueUnits a + valueUnits b).natAbs 1)

/-- R37, R83: the binary64 nearest to the decimal `± digits · 10^(-scale)`, ties to even. -/
def ofDecimal (neg : Bool) (digits scale : Nat) : Word := packWord neg (nearestBits (digits * 2 ^ 1074) (10 ^ scale))

end Sys2Proof.Machine
end

