-- ==== Sys2Proof/Machine/DefaultCoefs.lean ====
section
/-! DEFINITION. The default coefficients of R37: the words the spec prints, and the decimal literals it prints beside
them. -/

namespace Sys2Proof.Machine

/-- R37: the words of taps 0 to 15. -/
def defaultCoefs0 : List Word :=
  [0xBFA6F13E9C1D0199#64, 0x3FA087FCB923A29C#64, 0x3F928D1450191D07#64, 0x3F81F18C9FB6134D#64,
   0x3F774398DC047835#64, 0x3F81C0CA600B0293#64, 0x3F8E52080A907CBA#64, 0x3F932B12D3415B14#64,
   0x3F8EEDBEB4DC153F#64, 0x3F669AE19835EC4B#64, 0xBF8B2C0B20C57265#64, 0xBF97D07273BAE2BF#64,
   0xBF933B2B4F392337#64, 0x3F44E99C106C5ECE#64, 0x3F99A7A6A296985D#64, 0x3FA3D34A954F87FE#64]

/-- R37: the words of taps 16 to 31. -/
def defaultCoefs16 : List Word :=
  [0x3F9EB385D3E9F780#64, 0x3F31192CF7AFCF66#64, 0xBFA1B123F9DA4C11#64, 0xBFAAE4F9EA3C495C#64,
   0xBFA44178705425F2#64, 0x3EF9CB8320B15070#64, 0x3FA6943FBD85312D#64, 0x3FB0B01358A25885#64,
   0x3FA887CA643CC07B#64, 0x3EEC4FC1DF3300DE#64, 0xBFAA09C57B9FB38F#64, 0xBFB2D98039764353#64,
   0xBFAB1AB0856E696A#64, 0xBF129604B9A3245D#64, 0x3FABA85370C05C7C#64, 0x3FB3A0F2536F12DD#64]

/-- R37: the words of taps 32 to 47. -/
def defaultCoefs32 : List Word :=
  [0x3FABA85370C05C7C#64, 0xBF129604B9A3245D#64, 0xBFAB1AB0856E696A#64, 0xBFB2D98039764353#64,
   0xBFAA09C57B9FB38F#64, 0x3EEC4FC1DF3300DE#64, 0x3FA887CA643CC07B#64, 0x3FB0B01358A25885#64,
   0x3FA6943FBD85312D#64, 0x3EF9CB8320B15070#64, 0xBFA44178705425F2#64, 0xBFAAE4F9EA3C495C#64,
   0xBFA1B123F9DA4C11#64, 0x3F31192CF7AFCF66#64, 0x3F9EB385D3E9F780#64, 0x3FA3D34A954F87FE#64]

/-- R37: the words of taps 48 to 62. -/
def defaultCoefs48 : List Word :=
  [0x3F99A7A6A296985D#64, 0x3F44E99C106C5ECE#64, 0xBF933B2B4F392337#64, 0xBF97D07273BAE2BF#64,
   0xBF8B2C0B20C57265#64, 0x3F669AE19835EC4B#64, 0x3F8EEDBEB4DC153F#64, 0x3F932B12D3415B14#64,
   0x3F8E52080A907CBA#64, 0x3F81C0CA600B0293#64, 0x3F774398DC047835#64, 0x3F81F18C9FB6134D#64,
   0x3F928D1450191D07#64, 0x3FA087FCB923A29C#64, 0xBFA6F13E9C1D0199#64]

/-- R37: the 63 default coefficient words, tap 0 first. -/
def defaultCoefs : List Word := defaultCoefs0 ++ defaultCoefs16 ++ defaultCoefs32 ++ defaultCoefs48

/-- R37: the decimal literals of taps 0 to 15, in units of 10^-7. -/
def defaultLiterals0 : List Int :=
  [-448093, 322875, 181163, 87615, 56797, 86685, 148049, 187190,
   151019, 27594, -132676, -232561, -187804, 6382, 250536, 387214]

/-- R37: the decimal literals of taps 16 to 31, in units of 10^-7. -/
def defaultLiterals16 : List Int :=
  [299817, 2609, -345546, -525282, -395620, 246, 440998, 651867,
   479110, 135, -508558, -736313, -529380, -709, 540186, 766746]

/-- R37: the decimal literals of taps 32 to 47, in units of 10^-7. -/
def defaultLiterals32 : List Int :=
  [540186, -709, -529380, -736313, -508558, 135, 479110, 651867,
   440998, 246, -395620, -525282, -345546, 2609, 299817, 387214]

/-- R37: the decimal literals of taps 48 to 62, in units of 10^-7. -/
def defaultLiterals48 : List Int :=
  [250536, 6382, -187804, -232561, -132676, 27594, 151019, 187190,
   148049, 86685, 56797, 87615, 181163, 322875, -448093]

/-- R37: the 63 decimal literals of the source, tap 0 first, in units of 10^-7 (each has seven decimals). -/
def defaultLiterals : List Int := defaultLiterals0 ++ defaultLiterals16 ++ defaultLiterals32 ++ defaultLiterals48

end Sys2Proof.Machine
end

