-- ==== Sys2Proof/Machine/State.lean ====
section
/-! DEFINITION. The state of one FIR_filter_engine instance (R20, R35, R38), the reasons a step can stop, and the
state after reset (R36, R210). -/

namespace Sys2Proof.Machine

/-- R81: the two kinds of event record. -/
inductive EventKind where
  /-- KIND 0x01, posted by R143. -/
  | denormal
  /-- KIND 0x02, posted by R183. -/
  | error
  deriving DecidableEq, Repr

/-- R81: an event record, a kind and a 64-bit payload. -/
structure Event where
  kind : EventKind
  payload : BitVec 64
  deriving DecidableEq, Repr

/-- R20 gives the architectural state; R35 the hidden state "a model of a running block must hold".  R56: a command is
one atomic step, so no command in flight is held between steps. -/
structure State where
  /-- R23 `COEF`: 512 words. -/
  coef : Memory
  /-- R25 `COEF_LEN`: the filter length `L`. -/
  coefLen : BitVec 10
  /-- R26, R27 `HIST`: 1023 words. -/
  hist : Memory
  /-- R28 `ACC`: the running sum of one output sample. -/
  acc : Word
  /-- R29 `DIAG_COUNT`. -/
  diagCount : BitVec 64
  /-- R30 `LAST_ERR`. -/
  lastErr : BitVec 4
  /-- R31 `STICKY`. -/
  sticky : BitVec 8
  /-- R35 item 2: the command words the host has sent and the block has not accepted, the next one first. -/
  cmdIn : List CmdWord
  /-- R35 item 2, R11: the data words the host has sent and the block has not taken, the next one first. -/
  dataIn : List Word
  /-- R35 item 2, R224: the words appended to the data-out channel since reset, the first one first. -/
  dataOut : List Word
  /-- R11, R223: how many more words the data-out channel takes before the host stops taking them; `none` while the
  host takes every word (log entry 6). -/
  outRoom : Option Nat
  /-- R35 item 3, R224: the records appended to the event channel since reset, the first one first. -/
  events : List Event
  /-- R35 item 3, R187: how many of `events` the host has taken; the rest occupy the event channel. -/
  evtTaken : Nat
  /-- The model's own field (log entry 4): how many events the block has offered, each with
  its own free values. -/
  evtDraws : Nat
  deriving DecidableEq, Repr

/-- Why the block makes no step.  The three waits are R223's: "A model gives the block no step while it waits"; the
state is the one the step began in, and only the host lifts the wait (log entry 5). -/
inductive Fault where
  /-- Raised by `step` when the command channel is empty (R223).  Safe: the hardware waits too. -/
  | waitCommand
  /-- Raised by SET_SCALAR, SET_BULK and PROCESS_BLOCK when the data-in channel holds fewer words than the command
  takes (R11, R223).  Safe: the hardware waits too. -/
  | waitDataIn
  /-- Raised by PROCESS_BLOCK and the readback commands when the host does not take all their output words (R11, R223).
  Safe: the hardware waits too, and completes no command. -/
  | waitDataOut
  /-- Raised by PROCESS_BLOCK and GET_COEFS when `COEF_LEN > 512`, which would index COEF beyond 511: "An index outside
  the array's range is never formed by any rule" (R10).  Safe: R25 makes such a length unreachable. -/
  | noSuchIndex
  deriving DecidableEq, Repr

/-- Why an instruction has no meaning. -/
inductive Refusal where
  /-- An instruction that has no meaning yet, by its mnemonic in spec/opcode_table.json; raised by `exec` only.  Safe. -/
  | notModelled (mnemonic : String)
  /-- Raised by PROCESS_BLOCK when `COEF_LEN = 0`: I1, "if a model admits `COEF_LEN = 0` by another route, it must
  `refuse` PROCESS_BLOCK".  Safe: R25 makes such a length unreachable. -/
  | zeroLength
  deriving DecidableEq, Repr

/-- R36, R210: the state after reset.  `acc` is 0 because the spec gives ACC no reset value (log entry 1). -/
def State.reset : State where
  coef := Memory.ofWords 0 defaultCoefs
  coefLen := 63
  hist := []
  acc := 0
  diagCount := 0
  lastErr := 0
  sticky := 0
  cmdIn := []
  dataIn := []
  dataOut := []
  outRoom := none
  events := []
  evtTaken := 0
  evtDraws := 0

end Sys2Proof.Machine
end

