-- ==== Sys2Proof/Machine/Flags.lean ====
section
/-! DEFINITION. The block's only status state, `LAST_ERR` and `STICKY` (R30, R31), the status word (R33), the error
codes (R181) and the event layouts (R81, R82).  R32: there are no condition codes and no arithmetic flags. -/

namespace Sys2Proof.Machine

/-- R181: every error the block can report. -/
inductive CmdErr where
  /-- Code 1, SET_BULK with `COUNT > 512`. -/
  | coefTooMany
  /-- Code 2, SET_BULK with `COUNT = 0`. -/
  | coefEmpty
  /-- Code 3, PROCESS_BLOCK with `COUNT > 512`. -/
  | blockTooLong
  /-- Code 4, decode: `OPC` not defined. -/
  | illegalOpcode
  /-- Code 5, decode: `RSV ≠ 0` or a reserved `COUNT ≠ 0`. -/
  | reservedField
  deriving DecidableEq, Repr

/-- R181: the number of an error. -/
def CmdErr.code : CmdErr → Nat
  | .coefTooMany => 1
  | .coefEmpty => 2
  | .blockTooLong => 3
  | .illegalOpcode => 4
  | .reservedField => 5

/-- R82, R183: `LIMIT` is 512 for codes 1 and 3, 1 for code 2 and 0 for codes 4 and 5. -/
def CmdErr.limit : CmdErr → Nat
  | .coefTooMany => 512
  | .coefEmpty => 1
  | .blockTooLong => 512
  | .illegalOpcode => 0
  | .reservedField => 0

/-- R76: the code each check of decode raises. -/
def decodeErr : DecodeReject → CmdErr
  | .illegalOpcode => .illegalOpcode
  | .rsvNonzero => .reservedField
  | .countNonzero => .reservedField

/-- R31: `STICKY` with bit `i` set; no other bit changes. -/
def setStickyBit (st : BitVec 8) (i : Nat) : BitVec 8 := st ||| (1#8 <<< i)

/-- R31 bit 5, `S_EVT_LOST`. -/
def evtLostBit : Nat := 5

/-- R33: `status = zext_64({COEF_LEN[9:0], STICKY[7:0], 0b0000, LAST_ERR[3:0]})`. -/
def statusWord (s : State) : BitVec 64 := (s.coefLen ++ s.sticky ++ (0 : BitVec 4) ++ s.lastErr).setWidth 64

/-- R81: the 8-bit `KIND` of an event. -/
def EventKind.code : EventKind → BitVec 8
  | .denormal => 0x01
  | .error => 0x02

/-- R82: `payload = zext_64({code[7:0], limit[15:0], w[31:0]})`. -/
def errorPayload (e : CmdErr) (w : CmdWord) : BitVec 64 :=
  (BitVec.ofNat 8 e.code ++ BitVec.ofNat 16 e.limit ++ w).setWidth 64

/-- R30: the command completes normally; `LAST_ERR <- 0`. -/
def complete (s : State) : State := { s with lastErr := 0 }

end Sys2Proof.Machine
end

