-- ==== Sys2Proof/Machine/Operands.lean ====
section
/-! DEFINITION. A command's operands and results: words of the data-in and data-out channels (R11, R71, R72).  R21: no
command names a register or an index. -/

namespace Sys2Proof.Machine

/-- R11 `DataIn()`, `n` times: the command goes on with the next `n` words of the data-in channel, in order, consumed
(R55).  If they are not all there, the block waits (R223). -/
def takeData (n : Nat) (s : State) (go : List Word → State → Host.Outcome State Fault Refusal) :
    Host.Outcome State Fault Refusal :=
  if n ≤ s.dataIn.length then go (s.dataIn.take n) { s with dataIn := s.dataIn.drop n } else .fault .waitDataIn

/-- R11, R223: the data-out channel takes `n` more words. -/
def State.hasRoom (s : State) (n : Nat) : Bool :=
  match s.outRoom with
  | none => true
  | some r => decide (n ≤ r)

/-- R11 `DataOut(v)` for each word of `ys` in order, after which the command completes normally (R30).  If the host
does not take them all, the block waits (R223). -/
def emitAndComplete (ys : List Word) (s : State) : Host.Outcome State Fault Refusal :=
  if s.hasRoom ys.length then
    .next (complete { s with dataOut := s.dataOut ++ ys, outRoom := s.outRoom.map (· - ys.length) })
  else .fault .waitDataOut

/-- R71, R72: `out(OPC, COUNT)`, how many words a command appends to the data-out channel when it completes normally;
a rejected command appends none. -/
def dataOutCount (i : Instr) (s : State) : Nat :=
  match i with
  | .nop => 0
  | .setScalar => 0
  | .setBulk _ => 0
  | .processBlock n => if n ≤ Config.maxInputLen then n else 0
  | .getCoefs => s.coefLen.toNat
  | .getHistory => Config.histCap
  | .getStatus => 2

end Sys2Proof.Machine
end

