-- ==== Sys2Proof/Machine/Ops.lean ====
section
/-! DEFINITION. The named operations the commands share: the event channel (R186), rejecting a command (R183, what this
block has in place of taking an exception, R180), the history buffer (R125, R129), the mac_accumulator (R127), the
diagnostics (R142, R143), and accepting a command word (R76). -/

namespace Sys2Proof.Machine

/-- R35 item 3, R187: how many records the event channel holds. -/
def State.evtHeld (s : State) : Nat := s.events.length - s.evtTaken

/-- Of `held` records, a host ready to take `k` takes `min k held`. -/
def recordsTaken (k : Nat) : Nat → Nat
  | 0 => 0
  | held + 1 => min k (held + 1)

/-- R187: the host takes up to `k` records, which removes them from the channel. -/
def hostTakeEvents (k : Nat) (s : State) : State := { s with evtTaken := s.evtTaken + recordsTaken k s.evtHeld }

/-- R186: does a record offered when the host takes `taken` records and the channel is found full (`full`) get lost?
Always when `EVT_FIFO_DEPTH` records are held. -/
def State.losesEvent (s : State) (taken : Nat) (full : Bool) : Bool :=
  full || decide (Config.evtFifoDepth ≤ s.evtHeld - recordsTaken taken s.evtHeld)

/-- R186 with the host's timing given: the host takes up to `taken` records; then the record is appended, or it is
dropped with `S_EVT_LOST` set. -/
def offerEvent (taken : Nat) (full : Bool) (kind : EventKind) (payload : BitVec 64) (s : State) : State :=
  { s with
    events := if s.losesEvent taken full then s.events else s.events ++ [⟨kind, payload⟩]
    sticky := if s.losesEvent taken full then setStickyBit s.sticky evtLostBit else s.sticky
    evtTaken := s.evtTaken + recordsTaken taken s.evtHeld
    evtDraws := s.evtDraws + 1 }

/-- R186: `PostEvent(kind, payload)`.  The host's timing is free (log entry 4), so each event is admitted both appended
and dropped. -/
def postEvent (kind : EventKind) (payload : BitVec 64) (s : State) : State :=
  offerEvent (Config.hostTakes s.evtDraws) (Config.evtFull s.evtDraws) kind payload s

/-- R183: `raise CmdError(code, limit)` during command word `w`.  R184: nothing is saved, no control is transferred,
and there is no return; "the next command word is decoded next". -/
def raiseCmdError (e : CmdErr) (w : CmdWord) (s : State) : State :=
  postEvent .error (errorPayload e w)
    { s with lastErr := BitVec.ofNat 4 e.code, sticky := setStickyBit s.sticky (e.code - 1) }

/-- R142, R143: the diagnostic on the first word of an accepted block. -/
def diagnose (x₀ : Word) (s : State) : State :=
  if isSubnormal64 x₀ then postEvent .denormal (s.diagCount + 1) { s with diagCount := s.diagCount + 1 } else s

/-- R125: `HIST[L-1+i] <- x[i]`. -/
def appendBlock (L : Nat) (xs : List Word) (hist : Memory) : Memory := Memory.writeFrom hist (L - 1) xs

/-- R127: one output of the mac_accumulator, the ascending, unfused sum from `+0.0` of `COEF[k] * HIST[p-k]` over `k` in
`0..L`, where `p = L-1+n`. -/
def macOutput (coef hist : Memory) (L p : Nat) : Word :=
  (List.range L).foldl
    (fun acc k => fadd64 acc (fmul64 (Memory.read coef k) (Memory.read hist (p - k)))) posZero

/-- R126: the `N` outputs of a block, in order. -/
def convolve (coef hist : Memory) (L N : Nat) : List Word :=
  (List.range N).map fun n => macOutput coef hist L (L - 1 + n)

/-- R129: for `i` in `0..L-1` in ascending order, `HIST[i] <- HIST[N+i]`. -/
def shiftDown (L N : Nat) (hist : Memory) : Memory :=
  (List.range (L - 1)).foldl (fun m i => Memory.write m i (Memory.read m (N + i))) hist

/-- The next word of the command channel, and the state once it is accepted. -/
def acceptCommand (s : State) : Option (CmdWord × State) :=
  match s.cmdIn with
  | [] => none
  | w :: rest => some (w, { s with cmdIn := rest })

/-- R76, R77: a command word that decode rejects takes no data words. -/
def rejectDecode (e : DecodeReject) (w : CmdWord) (s : State) : State := raiseCmdError (decodeErr e) w s

/-- R215: a whole command at the head of the block's channels, its command word and its data words. -/
def placeCommand (w : CmdWord) (data : List Word) (s : State) : State :=
  { s with cmdIn := w :: s.cmdIn, dataIn := data ++ s.dataIn }

/-- R72: how many data words a command word takes (none when decode rejects it, R76). -/
def dataWordsTaken (w : CmdWord) : Nat :=
  match decode w with
  | .ok i => i.dataInCount
  | .error _ => 0

end Sys2Proof.Machine
end

