-- ==== Sys2Proof/Machine/CoefStore.lean ====
section
/-! DEFINITION. SET_SCALAR and SET_BULK (R100 to R106). -/

namespace Sys2Proof.Machine

/-- R101: takes one data word `v`; `COEF[0] <- v`, `COEF_LEN <- 1`. -/
def execSetScalar (s : State) : Host.Outcome State Fault Refusal :=
  takeData 1 s fun vs s =>
    .next (complete { s with coef := Memory.writeFrom s.coef 0 vs, coefLen := 1 })

/-- R102: takes `n` data words, accepted or not; code 1 above 512, code 2 at 0, else `COEF[i] <- vals[i]` and
`COEF_LEN <- n`. -/
def execSetBulk (n : Nat) (s : State) : Host.Outcome State Fault Refusal :=
  takeData n s fun vals s =>
    if Config.maxCoeffsLen < n then .next (raiseCmdError .coefTooMany (encode (.setBulk n)) s)
    else if n = 0 then .next (raiseCmdError .coefEmpty (encode (.setBulk n)) s)
    else .next (complete { s with coef := Memory.writeFrom s.coef 0 vals, coefLen := BitVec.ofNat 10 n })

end Sys2Proof.Machine
end

