-- ==== Sys2Proof/Machine/Control.lean ====
section
/-! DEFINITION. NOP, GET_COEFS, GET_HISTORY and GET_STATUS (R160 to R164). -/

namespace Sys2Proof.Machine

/-- R160. -/
def execNop (s : State) : Host.Outcome State Fault Refusal := .next (complete s)

/-- R161: emits `COEF[0..L-1]`.  A length above 512, which R25 makes unreachable, would index COEF beyond 511 (R10). -/
def execGetCoefs (s : State) : Host.Outcome State Fault Refusal :=
  if Config.maxCoeffsLen < s.coefLen.toNat then .fault .noSuchIndex
  else emitAndComplete ((List.range s.coefLen.toNat).map (Memory.read s.coef)) s

/-- R162: emits `HIST[0..1022]`, the stale words included. -/
def execGetHistory (s : State) : Host.Outcome State Fault Refusal :=
  emitAndComplete ((List.range Config.histCap).map (Memory.read s.hist)) s

/-- R163: emits the status word, with the previous `LAST_ERR`, and then `DIAG_COUNT`. -/
def execGetStatus (s : State) : Host.Outcome State Fault Refusal :=
  emitAndComplete [statusWord s, s.diagCount] s

end Sys2Proof.Machine
end

