-- ==== Sys2Proof/Machine/ProcessBlock.lean ====
section
/-! DEFINITION. PROCESS_BLOCK (R120 to R146). -/

namespace Sys2Proof.Machine

/-- R120 from the diagnostics on, for an accepted block `xs` with at least one sample: diagnostics, append, convolve,
shift, outputs, `LAST_ERR <- 0`.  R57, R124: `L` is read once.  `ACC` keeps the last output (R28).  I1: a length of 0
is refused; a length above 512 would index COEF beyond 511 (R10); R25 makes both unreachable. -/
def processAccepted (xs : List Word) (s : State) : Host.Outcome State Fault Refusal :=
  let L := s.coefLen.toNat
  if L = 0 then .refused .zeroLength
  else if Config.maxCoeffsLen < L then .fault .noSuchIndex
  else
    let h := appendBlock L xs s.hist
    let ys := convolve s.coef h L xs.length
    let s₁ := diagnose (xs.headD posZero) s
    emitAndComplete ys { s₁ with hist := shiftDown L xs.length h, acc := ys.getLastD s.acc }

/-- R120: takes `n` data words, accepted or not (R121); code 3 above 512; nothing but `LAST_ERR <- 0` at 0 (R122). -/
def execProcessBlock (n : Nat) (s : State) : Host.Outcome State Fault Refusal :=
  takeData n s fun xs s =>
    if Config.maxInputLen < n then .next (raiseCmdError .blockTooLong (encode (.processBlock n)) s)
    else if n = 0 then .next (complete s)
    else processAccepted xs s

end Sys2Proof.Machine
end

