-- ==== Sys2Proof/Machine/Dispatch.lean ====
section
/-! DEFINITION. One arm per command: the state it is given has the command word already accepted (R76). -/

namespace Sys2Proof.Machine

def exec (i : Instr) (s : State) : Host.Outcome State Fault Refusal :=
  match i with
  | .nop => Sys2Proof.Machine.execNop s
  | .setScalar => Sys2Proof.Machine.execSetScalar s
  | .setBulk count => Sys2Proof.Machine.execSetBulk count s
  | .processBlock count => Sys2Proof.Machine.execProcessBlock count s
  | .getCoefs => Sys2Proof.Machine.execGetCoefs s
  | .getHistory => Sys2Proof.Machine.execGetHistory s
  | .getStatus => Sys2Proof.Machine.execGetStatus s

end Sys2Proof.Machine
end

