-- ==== Sys2Proof/Machine/Step.lean ====
section
/-! DEFINITION. One step: one command, from the acceptance of its command word to its completion (R56, R76). -/

namespace Sys2Proof.Machine

/-- R22, R56, R76: accept the next command word, decode it, and execute the command or reject it.  R223: with an empty
command channel the block waits. -/
def step (s : State) : Host.Outcome State Fault Refusal :=
  match acceptCommand s with
  | none => .fault .waitCommand
  | some (w, s₁) =>
    match decode w with
    | .ok i => exec i s₁
    | .error e => .next (rejectDecode e w s₁)

/-- The instruction whose bits are `w`, as spec/opcode_table.json numbers them, at the head of the block's channels: its
command word and, as the host must send whole commands (R215), the data words it takes (R72), from the bits above the
command word (zeros where the table gives none).  Log entry 7. -/
def State.withFetchWord (s : State) (nbits w : Nat) : State :=
  placeCommand (tableCmdWord nbits w) (tableDataWords nbits w (dataWordsTaken (tableCmdWord nbits w))) s

end Sys2Proof.Machine
end

