-- ==== Sys2Proof/Machine/HostPort.lean ====
section
/-! DEFINITION. What the host can do to the block between two steps: send whole commands, take events, take or stop
taking output words, and assert reset (R187, R210 to R217, R223). -/

namespace Sys2Proof.Machine

/-- R215: the host sends a command word, followed on the data-in channel by the command's data words. -/
def hostSend (w : CmdWord) (data : List Word) (s : State) : State :=
  { s with cmdIn := s.cmdIn ++ [w], dataIn := s.dataIn ++ data }

/-- R217, R223: the host decides how many more output words it takes (`none`: every one). -/
def hostTakeOutputs (room : Option Nat) (s : State) : State := { s with outRoom := room }

/-- R210 to R212: the reset input.  Every element of state goes to its value of R36, and the block's own buffering of
the channels is emptied: `cmdBuffered` command words and `dataBuffered` data words of the two input channels were
inside the block, those of an abandoned command among them (R211); the words behind them are the host's and stay (R214
asks the host to discard them too).  No event is posted and no data word is emitted. -/
def assertReset (cmdBuffered dataBuffered : Nat) (s : State) : State :=
  { State.reset with
    cmdIn := s.cmdIn.drop cmdBuffered
    dataIn := s.dataIn.drop dataBuffered
    outRoom := s.outRoom
    evtDraws := s.evtDraws }

end Sys2Proof.Machine
end

