-- ==== Sys2Proof/Machine/Assembler.lean ====
section
/-! DEFINITION. The text form of command streams (R83), as terms: what a line's encoding is and which lines the
assembler rejects.  R84: there are no pseudo-instructions. -/

namespace Sys2Proof.Machine

/-- R83: a `<value>`. -/
inductive AsmValue where
  /-- A decimal floating literal `± digits · 10^(-scale)`, "read as the nearest binary64 with ties to even". -/
  | decimal (neg : Bool) (digits scale : Nat)
  /-- `-0.0`. -/
  | negZero
  /-- `+inf`. -/
  | posInf
  /-- `-inf`. -/
  | negInf
  /-- `nan`, the word `0x7FF8000000000000`. -/
  | nan
  /-- `w:0x<16 hex digits>`, an exact bit pattern. -/
  | bits (v : Word)
  deriving DecidableEq, Repr

/-- R83: the word a `<value>` stands for. -/
def asmWord : AsmValue → Word
  | .decimal neg digits scale => ofDecimal neg digits scale
  | .negZero => Sys2Proof.Machine.negZero
  | .posInf => packWord false infBits
  | .negInf => packWord true infBits
  | .nan => canonicalNaN
  | .bits v => v

/-- R83: a line of a command stream. -/
inductive AsmLine where
  | nop
  | setScalar (v : AsmValue)
  | setBulk (n : Nat) (vs : List AsmValue)
  | processBlock (n : Nat) (vs : List AsmValue)
  | getCoefs
  | getHistory
  | getStatus
  /-- `.cmd`: a raw command word with the data words the host sends after it. -/
  | raw (w : CmdWord) (vs : List AsmValue)
  deriving DecidableEq, Repr

/-- R83: "The assembler rejects a SET_BULK or PROCESS_BLOCK whose list length differs from its count"; a count has 16
bits (R73). -/
def asmAccepts : AsmLine → Bool
  | .setBulk n vs => decide (vs.length = n) && decide (n < 65536)
  | .processBlock n vs => decide (vs.length = n) && decide (n < 65536)
  | .nop => true
  | .setScalar _ => true
  | .getCoefs => true
  | .getHistory => true
  | .getStatus => true
  | .raw _ _ => true

/-- R83: "A line's encoding is its command word followed by its data words in list order". -/
def asmEncode : AsmLine → CmdWord × List Word
  | .nop => (encode .nop, [])
  | .setScalar v => (encode .setScalar, [asmWord v])
  | .setBulk n vs => (encode (.setBulk n), vs.map asmWord)
  | .processBlock n vs => (encode (.processBlock n), vs.map asmWord)
  | .getCoefs => (encode .getCoefs, [])
  | .getHistory => (encode .getHistory, [])
  | .getStatus => (encode .getStatus, [])
  | .raw w vs => (w, vs.map asmWord)

/-- The host sends the lines of a stream in order (R215): how a program comes to run. -/
def hostSendLines (lines : List AsmLine) (s : State) : State :=
  lines.foldl (fun s l => hostSend (asmEncode l).1 (asmEncode l).2 s) s

end Sys2Proof.Machine
end

