-- ==== Sys2Proof/Safety.lean ====
section
/-! DEFINITION. The vocabulary of the claims: the invariant of the state (R25, R30, R31, R51, R81, R139, R141, R186),
the end of a run (R224), and the ways a command can end. -/

namespace Sys2Proof.Machine

/-- R81, R82: an event the block can post: every ERROR payload is the one of R82 for some code and command word. -/
def legalEvent (ev : Event) : Prop := ev.kind = .error → ∃ e w, ev.payload = errorPayload e w

/-- What every step keeps. -/
structure Inv (s : State) : Prop where
  /-- R51: `COEF` has 512 words; its listing is in canonical form. -/
  coefWf : Memory.wf Config.maxCoeffsLen s.coef = true
  /-- R51: `HIST` has 1023 words; its listing is in canonical form. -/
  histWf : Memory.wf Config.histCap s.hist = true
  /-- R25: the legal values of `COEF_LEN` are 1 to 512. -/
  lenPos : 1 ≤ s.coefLen.toNat
  /-- R25: the legal values of `COEF_LEN` are 1 to 512. -/
  lenMax : s.coefLen.toNat ≤ Config.maxCoeffsLen
  /-- R30: "Values 6 to 15 are never written". -/
  lastErrLegal : s.lastErr.toNat ≤ 5
  /-- R31: bits 7:6 of `STICKY` are never set. -/
  stickyReserved : s.sticky.extractLsb' 6 2 = 0
  /-- R187: the host takes only events that were appended. -/
  takenLe : s.evtTaken ≤ s.events.length
  /-- R186: the event channel holds up to `EVT_FIFO_DEPTH` records. -/
  heldLe : s.evtHeld ≤ Config.evtFifoDepth
  /-- R81, R82. -/
  eventsLegal : ∀ ev ∈ s.events, legalEvent ev
  /-- R141: `ACC` is never `-0.0`. -/
  accNotNegZero : s.acc ≠ negZero
  /-- R139: a NaN in `ACC` is the canonical one. -/
  accCanonical : isNaN64 s.acc = true → s.acc = canonicalNaN

/-- R224: every command of the stream has completed and the command channel is empty. -/
def RunEnded (s : State) : Prop := s.cmdIn = []

/-- R186: one event is offered between `s` and `t`.  The host has taken `taken` of the records the channel held; then
the record is dropped with `STICKY` bit 5 set if the channel holds `EVT_FIFO_DEPTH` records or the host's timing (free,
log entry 4) makes the block find it full, and appended otherwise. -/
def PostsOne (ev : Event) (s t : State) : Prop :=
  t.evtDraws = s.evtDraws + 1 ∧
  ∃ taken, taken ≤ s.evtHeld ∧ t.evtTaken = s.evtTaken + taken ∧
    ((s.evtHeld - taken < Config.evtFifoDepth ∧ Config.evtFull s.evtDraws = false ∧
        t.events = s.events ++ [ev] ∧ t.sticky.getLsbD 5 = s.sticky.getLsbD 5) ∨
      ((Config.evtFifoDepth ≤ s.evtHeld - taken ∨ Config.evtFull s.evtDraws = true) ∧
        t.events = s.events ∧ t.sticky.getLsbD 5 = true))

/-- No event is offered between `s` and `t`. -/
def PostsNone (s t : State) : Prop := t.events = s.events ∧ t.evtTaken = s.evtTaken ∧ t.evtDraws = s.evtDraws

/-- `COEF` and `COEF_LEN` are as before. -/
def KeepsFilter (s t : State) : Prop := t.coef = s.coef ∧ t.coefLen = s.coefLen

/-- `HIST`, `ACC` and `DIAG_COUNT` are as before. -/
def KeepsHistory (s t : State) : Prop := t.hist = s.hist ∧ t.acc = s.acc ∧ t.diagCount = s.diagCount

/-- The words `ys` are appended to the data-out channel, which has so much less room. -/
def Emits (ys : List Word) (s t : State) : Prop :=
  t.dataOut = s.dataOut ++ ys ∧ t.outRoom = s.outRoom.map (· - ys.length)

/-- The next `n` data words are taken and no command word is. -/
def TakesData (n : Nat) (s t : State) : Prop := t.dataIn = s.dataIn.drop n ∧ t.cmdIn = s.cmdIn

/-- R30: a normal completion: `LAST_ERR` is 0, `STICKY` is as before and no event is offered. -/
def EndsNormally (s t : State) : Prop := t.lastErr = 0 ∧ t.sticky = s.sticky ∧ PostsNone s t

/-- R182, R183: command word `w` is rejected with error `e` after taking `n` data words: `LAST_ERR` is the code,
`STICKY[code-1]` is set, an ERROR event with the payload of R82 is offered (which alone may change `STICKY` bit 5), and
everything else is as before. -/
def EndsRejected (e : CmdErr) (w : CmdWord) (n : Nat) (s t : State) : Prop :=
  t.lastErr.toNat = e.code ∧
    t.sticky.getLsbD (e.code - 1) = true ∧
    (∀ b, b ≠ e.code - 1 → b ≠ 5 → t.sticky.getLsbD b = s.sticky.getLsbD b) ∧
    PostsOne ⟨.error, errorPayload e w⟩ s t ∧
    KeepsFilter s t ∧ KeepsHistory s t ∧ Emits [] s t ∧ TakesData n s t

/-- R125: word `i` of `HIST` after the append of the block `xs` at offset `L-1`. -/
def afterAppend (s : State) (xs : List Word) (i : Nat) : Word :=
  if s.coefLen.toNat - 1 ≤ i ∧ i < s.coefLen.toNat - 1 + xs.length then xs.getD (i - (s.coefLen.toNat - 1)) 0
  else Memory.read s.hist i

/-- R127: the ascending, unfused sum, from `+0.0`, of `c k * x k` over `k` in `0..L`. -/
def ascendingSum (c x : Nat → Word) (L : Nat) : Word :=
  (List.range L).foldl (fun acc k => fadd64 acc (fmul64 (c k) (x k))) posZero

/-- R134: PROCESS_BLOCK commands of the given sizes, one after another. -/
def runBlocks : List Nat → State → Host.Outcome State Fault Refusal
  | [], s => .next s
  | n :: ns, s =>
    match exec (.processBlock n) s with
    | .next t => runBlocks ns t
    | .fault r => .fault r
    | .refused r => .refused r

/-- R181, R185: the one result code of a command word, by the checks of R76 and then the command's own count check. -/
def resultCode (w : CmdWord) : Nat :=
  match decode w with
  | .error e => (decodeErr e).code
  | .ok (.setBulk n) => if 512 < n then 1 else if n = 0 then 2 else 0
  | .ok (.processBlock n) => if 512 < n then 3 else 0
  | .ok _ => 0

end Sys2Proof.Machine
end

