-- ==== Sys2Proof/Certificates/Slice0/Obligations.lean ====
section
/-! DEFINITION. The statements for the provers.  Each docstring names the rules of spec/ it formalises.  The vocabulary
(`Inv`, `PostsOne`, `EndsRejected`, `afterAppend`, `ascendingSum`, …) stands in Sys2Proof/Safety.lean. -/

open Sys2Proof Sys2Proof.Machine

/-! ### Encoding -/

/-- R70, R72: decoding the word of a well-formed command gives the command back, at every count. -/
def Obligations.EncodeThenDecodeReturnsCommand : Prop :=
  ∀ i : Instr, i.wellFormed = true → decode (encode i) = .ok i

/-- R76, R79: a word that decodes is the word of the command it decodes to; no two words decode to one command. -/
def Obligations.DecodedWordIsTheCommandsWord : Prop :=
  ∀ (w : CmdWord) (i : Instr), decode w = .ok i → i.wellFormed = true ∧ encode i = w

/-- R76: the checks of decode in their order, the seven commands they select, the codes they raise, and that a word
rejected by decode takes no data words. -/
def Obligations.DecodeChecksInOrder : Prop :=
  (∀ (opc rsv : BitVec 8) (cnt : BitVec 16),
    (opc ∉ [0x00#8, 0x01#8, 0x02#8, 0x03#8, 0x10#8, 0x11#8, 0x12#8] →
      decode (opc ++ rsv ++ cnt) = .error .illegalOpcode) ∧
    (opc ∈ [0x00#8, 0x01#8, 0x02#8, 0x03#8, 0x10#8, 0x11#8, 0x12#8] → rsv ≠ 0 →
      decode (opc ++ rsv ++ cnt) = .error .rsvNonzero) ∧
    (opc ∈ [0x00#8, 0x01#8, 0x10#8, 0x11#8, 0x12#8] → rsv = 0 → cnt ≠ 0 →
      decode (opc ++ rsv ++ cnt) = .error .countNonzero) ∧
    decode (0x00#8 ++ 0#8 ++ 0#16) = .ok .nop ∧
    decode (0x01#8 ++ 0#8 ++ 0#16) = .ok .setScalar ∧
    decode (0x02#8 ++ 0#8 ++ cnt) = .ok (.setBulk cnt.toNat) ∧
    decode (0x03#8 ++ 0#8 ++ cnt) = .ok (.processBlock cnt.toNat) ∧
    decode (0x10#8 ++ 0#8 ++ 0#16) = .ok .getCoefs ∧
    decode (0x11#8 ++ 0#8 ++ 0#16) = .ok .getHistory ∧
    decode (0x12#8 ++ 0#8 ++ 0#16) = .ok .getStatus) ∧
  (decodeErr .illegalOpcode).code = 4 ∧ (decodeErr .rsvNonzero).code = 5 ∧ (decodeErr .countNonzero).code = 5 ∧
  ∀ (s : State) (w : CmdWord) (e : DecodeReject), decode w = .error e →
    ∃ t, step { s with cmdIn := w :: s.cmdIn } = .next t ∧ t.dataIn = s.dataIn

/-- R86: the sixteen worked encodings, each with its decode result. -/
def Obligations.WorkedEncodingsDecode : Prop :=
  decode 0x00000000#32 = .ok .nop ∧ decode 0x01000000#32 = .ok .setScalar ∧
  decode 0x02000003#32 = .ok (.setBulk 3) ∧ decode 0x02000200#32 = .ok (.setBulk 512) ∧
  decode 0x02000201#32 = .ok (.setBulk 513) ∧ decode 0x02000000#32 = .ok (.setBulk 0) ∧
  decode 0x03000200#32 = .ok (.processBlock 512) ∧ decode 0x03000201#32 = .ok (.processBlock 513) ∧
  decode 0x03000000#32 = .ok (.processBlock 0) ∧ decode 0x10000000#32 = .ok .getCoefs ∧
  decode 0x11000000#32 = .ok .getHistory ∧ decode 0x12000000#32 = .ok .getStatus ∧
  decode 0x04000000#32 = .error .illegalOpcode ∧ decode 0xFF000003#32 = .error .illegalOpcode ∧
  decode 0x03010004#32 = .error .rsvNonzero ∧ decode 0x01000001#32 = .error .countNonzero

/-- R77: the 249 illegal opcodes are rejected with code 4, take no data words and change no state but `LAST_ERR`,
`STICKY` and the event channel. -/
def Obligations.IllegalOpcodesAreRejected : Prop :=
  (∀ (s : State) (w : CmdWord) (rest : List CmdWord), s.cmdIn = w :: rest →
    ((0x04 ≤ (w.extractLsb' 24 8).toNat ∧ (w.extractLsb' 24 8).toNat ≤ 0x0F) ∨ 0x13 ≤ (w.extractLsb' 24 8).toNat) →
    ∃ t, step s = .next t ∧ EndsRejected .illegalOpcode w 0 { s with cmdIn := rest } t) ∧
  ((List.range 256).filter fun o => decide ((0x04 ≤ o ∧ o ≤ 0x0F) ∨ 0x13 ≤ o)).length = 249

/-- R74, R75: a nonzero `RSV` with a defined opcode, or a nonzero `COUNT` with an opcode that has no count, is rejected
with code 5 and takes no data words. -/
def Obligations.ReservedFieldsAreRejected : Prop :=
  ∀ (s : State) (w : CmdWord) (rest : List CmdWord), s.cmdIn = w :: rest →
    ((w.extractLsb' 24 8 ∈ [0x00#8, 0x01#8, 0x02#8, 0x03#8, 0x10#8, 0x11#8, 0x12#8] ∧ w.extractLsb' 16 8 ≠ 0) ∨
      (w.extractLsb' 24 8 ∈ [0x00#8, 0x01#8, 0x10#8, 0x11#8, 0x12#8] ∧ w.extractLsb' 0 16 ≠ 0)) →
    ∃ t, step s = .next t ∧ EndsRejected .reservedField w 0 { s with cmdIn := rest } t

/-! ### One step -/

/-- R22, R56, R76: a step accepts the next command word, and runs the command it decodes to on the state in which that
word has left the channel. -/
def Obligations.StepRunsDecodedCommand : Prop :=
  ∀ (s : State) (w : CmdWord) (rest : List CmdWord) (i : Instr), s.cmdIn = w :: rest → decode w = .ok i →
    step s = exec i { s with cmdIn := rest }

/-- R215 (the model's loading convention, log entry 7): a command word placed where the next one is accepted, with zero
data words as many as it takes, is the very next command to run. -/
def Obligations.PlacedCommandRunsNext : Prop :=
  ∀ (s : State) (w : CmdWord) (i : Instr), decode w = .ok i →
    step (s.withFetchWord 32 w.toNat) = exec i { s with dataIn := List.replicate i.dataInCount 0 ++ s.dataIn }

/-- R11, R223: in a legal state the block makes no step exactly when it waits: for a command word, for data words of
the command, or for room for the command's output words.  That a wait is the outcome `fault` is the model's convention
(log entry 5). -/
def Obligations.StepWaitsExactlyForChannels : Prop :=
  ∀ s : State, Inv s →
    ((∃ r, step s = .fault r) ↔
      s.cmdIn = [] ∨
      ∃ w rest i, s.cmdIn = w :: rest ∧ decode w = .ok i ∧
        (s.dataIn.length < i.dataInCount ∨ s.hasRoom (dataOutCount i s) = false))

/-- R25, I1: in a legal state no step is refused. -/
def Obligations.LegalStateIsNeverRefused : Prop :=
  ∀ s : State, Inv s → ∀ r, step s ≠ .refused r

/-- R71: a command takes exactly `in(OPC, COUNT)` data words, and appends exactly `out(OPC, COUNT)` words when it
completes normally and none when it is rejected. -/
def Obligations.CommandsMoveTheirDataCounts : Prop :=
  ∀ (i : Instr) (s t : State), exec i s = .next t →
    TakesData i.dataInCount s t ∧
    (t.lastErr = 0 → ∃ ys, ys.length = dataOutCount i s ∧ Emits ys s t) ∧
    (t.lastErr ≠ 0 → Emits [] s t)

/-- R30, R181, R185: `LAST_ERR` after a step is the one result code of the command word, by the checks in their
order. -/
def Obligations.LastErrIsTheResultCode : Prop :=
  ∀ (s t : State) (w : CmdWord) (rest : List CmdWord), s.cmdIn = w :: rest → step s = .next t →
    t.lastErr.toNat = resultCode w

/-- R182: what each rejection leaves. -/
def Obligations.RejectionsArePrecise : Prop :=
  ∀ (s t : State) (w : CmdWord) (rest : List CmdWord), s.cmdIn = w :: rest → step s = .next t → t.lastErr ≠ 0 →
    KeepsFilter s t ∧ KeepsHistory s t ∧ Emits [] s t ∧
    (t.lastErr.toNat ≤ 3 → t.dataIn = s.dataIn.drop (w.extractLsb' 0 16).toNat) ∧
    (4 ≤ t.lastErr.toNat → t.dataIn = s.dataIn)

/-! ### Status and events -/

/-- R31: a step sets bit `code-1` of `STICKY` for the code it reports, bit 5 when it drops an event, and no other bit;
it clears none; reset clears all. -/
def Obligations.StickyBitsAreSetByTheirConditions : Prop :=
  (∀ s t : State, step s = .next t →
    (∀ b, b < 5 → t.sticky.getLsbD b = (s.sticky.getLsbD b || decide (t.lastErr.toNat = b + 1))) ∧
    (t.sticky.getLsbD 5 = true ↔
      s.sticky.getLsbD 5 = true ∨ (t.evtDraws = s.evtDraws + 1 ∧ t.events = s.events)) ∧
    t.sticky.extractLsb' 6 2 = s.sticky.extractLsb' 6 2) ∧
  ∀ (a b : Nat) (s : State), (assertReset a b s).sticky = 0

/-- R188: which commands post which events. -/
def Obligations.EventsPerCommand : Prop :=
  ∀ (s t : State) (w : CmdWord) (rest : List CmdWord), s.cmdIn = w :: rest → step s = .next t →
    (∀ i ∈ [Instr.nop, .setScalar, .getCoefs, .getHistory, .getStatus], decode w = .ok i → PostsNone s t) ∧
    (∀ n, decode w = .ok (.setBulk n) → t.lastErr = 0 → PostsNone s t) ∧
    (∀ n, decode w = .ok (.processBlock n) → t.lastErr = 0 →
      PostsNone s t ∨ ∃ p, PostsOne ⟨.denormal, p⟩ s t) ∧
    (t.lastErr ≠ 0 → ∃ p, PostsOne ⟨.error, p⟩ s t)

/-- R7, R186, D15: since `EVT_FIFO_DEPTH ≥ 1`, the event of a step from an empty event channel is delivered under the
premise on the host, that the block does not find the channel full (a free value, log entry 4), and dropped with
`STICKY` bit 5 set without it; a step that offers no event loses none. -/
def Obligations.EmptyChannelDeliversEvents : Prop :=
  ∀ s t : State, s.evtHeld = 0 → step s = .next t →
    (PostsNone s t ∧ t.sticky.getLsbD 5 = s.sticky.getLsbD 5) ∨
    (t.evtDraws = s.evtDraws + 1 ∧
      if Config.evtFull s.evtDraws then t.events = s.events ∧ t.sticky.getLsbD 5 = true
      else (∃ ev, t.events = s.events ++ [ev]) ∧ t.sticky.getLsbD 5 = s.sticky.getLsbD 5)

/-- R82: the layout of the ERROR payload. -/
def Obligations.ErrorPayloadLayout : Prop :=
  ∀ (e : CmdErr) (w : CmdWord),
    (errorPayload e w).extractLsb' 0 32 = w ∧
    ((errorPayload e w).extractLsb' 32 16).toNat =
      (if e.code = 1 ∨ e.code = 3 then 512 else if e.code = 2 then 1 else 0) ∧
    ((errorPayload e w).extractLsb' 48 8).toNat = e.code ∧ 1 ≤ e.code ∧ e.code ≤ 5 ∧
    (errorPayload e w).extractLsb' 56 8 = 0

/-! ### Coefficient store -/

/-- R24, R101: SET_SCALAR on the data word `v` completes: `COEF[0]` is `v`, every other coefficient word stays,
`COEF_LEN` is 1, and nothing else but `LAST_ERR` and the data-in channel changes. -/
def Obligations.SetScalarReplacesFilter : Prop :=
  ∀ (s : State) (v : Word) (rest : List Word), Inv s → s.dataIn = v :: rest →
    ∃ t, exec .setScalar s = .next t ∧
      (∀ k, Memory.read t.coef k = if k = 0 then v else Memory.read s.coef k) ∧ t.coefLen = 1 ∧
      t.dataIn = rest ∧ t.cmdIn = s.cmdIn ∧ EndsNormally s t ∧ KeepsHistory s t ∧ Emits [] s t

/-- R24, R102: SET_BULK with `1 ≤ n ≤ 512` completes: `COEF[0..n-1]` are the `n` data words in order, the other words
stay, `COEF_LEN` is `n`, and nothing else but `LAST_ERR` and the data-in channel changes. -/
def Obligations.SetBulkReplacesFilter : Prop :=
  ∀ (s : State) (n : Nat), Inv s → 1 ≤ n → n ≤ 512 → n ≤ s.dataIn.length →
    ∃ t, exec (.setBulk n) s = .next t ∧
      (∀ k, k < n → s.dataIn[k]? = some (Memory.read t.coef k)) ∧
      (∀ k, n ≤ k → Memory.read t.coef k = Memory.read s.coef k) ∧ t.coefLen.toNat = n ∧
      TakesData n s t ∧ EndsNormally s t ∧ KeepsHistory s t ∧ Emits [] s t

/-- R103: a rejected SET_BULK leaves the filter as it was and still takes its `n` data words; and the test of §8: after
`SET_BULK 513` from reset, GET_COEFS still emits the 63 default words. -/
def Obligations.RejectedSetBulkKeepsFilter : Prop :=
  (∀ (s : State) (n : Nat), n < 65536 → n ≤ s.dataIn.length →
    (512 < n → ∃ t, exec (.setBulk n) s = .next t ∧
      EndsRejected .coefTooMany (BitVec.ofNat 32 (0x02000000 + n)) n s t) ∧
    (n = 0 → ∃ t, exec (.setBulk n) s = .next t ∧ EndsRejected .coefEmpty 0x02000000#32 0 s t)) ∧
  ∀ data : List Word, data.length = 513 →
    ∃ t u, exec (.setBulk 513) { State.reset with dataIn := data } = .next t ∧ t.lastErr = 1 ∧
      t.sticky.getLsbD 0 = true ∧
      PostsOne ⟨.error, 0x0001020002000201#64⟩ { State.reset with dataIn := data } t ∧
      exec .getCoefs t = .next u ∧ u.dataOut = defaultCoefs

/-- R58: SET_BULK replaces `COEF[0..n-1]` and `COEF_LEN` together or not at all. -/
def Obligations.SetBulkIsAllOrNothing : Prop :=
  ∀ (s t : State) (n : Nat), Inv s → exec (.setBulk n) s = .next t →
    (t.lastErr = 0 ∧ t.coefLen.toNat = n ∧ ∀ k, k < n → s.dataIn[k]? = some (Memory.read t.coef k)) ∨
    (t.lastErr ≠ 0 ∧ KeepsFilter s t)

/-- R105: `SET_BULK 1 [v]` and `SET_SCALAR v` leave the same state: `COEF[0] = v`, `COEF_LEN = 1`, `LAST_ERR = 0`,
everything else unchanged. -/
def Obligations.SetBulkOneEqualsSetScalar : Prop :=
  ∀ (s : State) (v : Word) (rest : List Word), s.dataIn = v :: rest →
    exec (.setBulk 1) s =
      .next { s with coef := Memory.write s.coef 0 v, coefLen := 1, lastErr := 0, dataIn := rest } ∧
    exec .setScalar s = exec (.setBulk 1) s

/-- R23, R25: only SET_SCALAR and SET_BULK write `COEF` and `COEF_LEN`. -/
def Obligations.OnlySetCommandsWriteFilter : Prop :=
  ∀ (i : Instr) (s t : State), exec i s = .next t → i ≠ .setScalar → (∀ n, i ≠ .setBulk n) → KeepsFilter s t

/-- R27, R29, R104: only PROCESS_BLOCK writes `HIST`, `ACC` and `DIAG_COUNT`; a coefficient update does not touch the
history. -/
def Obligations.OnlyProcessBlockWritesHistory : Prop :=
  ∀ (i : Instr) (s t : State), exec i s = .next t → (∀ n, i ≠ .processBlock n) → KeepsHistory s t

/-! ### Block processing -/

/-- R126, R127, R128: an accepted block completes; output `j` is the ascending, unfused sum of `COEF[k] * HIST[L-1+j-k]`
read after the append; the outputs are appended in order; the filter is unchanged.
That `ACC` keeps the last output is the model's choice (log entry 11, DEDUCED; R28 says that a model need not hold
it). -/
def Obligations.ProcessBlockOutputs : Prop :=
  ∀ (s : State) (n : Nat), Inv s → 1 ≤ n → n ≤ 512 → n ≤ s.dataIn.length → s.hasRoom n = true →
    ∃ t ys, exec (.processBlock n) s = .next t ∧ ys.length = n ∧
      (∀ j, j < n → ys[j]? = some (ascendingSum (Memory.read s.coef)
        (fun k => afterAppend s (s.dataIn.take n) (s.coefLen.toNat - 1 + j - k)) s.coefLen.toNat)) ∧
      Emits ys s t ∧ ys.getLast? = some t.acc ∧ t.lastErr = 0 ∧ TakesData n s t ∧ KeepsFilter s t

/-- R125, R129, R130: `HIST` after an accepted block: words `0 .. L-2` are words `n .. n+L-2` of the appended history,
and every other word is that of the appended history. -/
def Obligations.ProcessBlockHistory : Prop :=
  ∀ (s t : State) (n : Nat), Inv s → 1 ≤ n → n ≤ 512 → exec (.processBlock n) s = .next t →
    ∀ i, Memory.read t.hist i =
      if i < s.coefLen.toNat - 1 then afterAppend s (s.dataIn.take n) (n + i)
      else afterAppend s (s.dataIn.take n) i

/-- R142, R143: a block whose first sample has exponent field 0 and a nonzero fraction adds 1 to `DIAG_COUNT` and posts
one DENORMAL event with the new count; any other block does neither.  No other bit of `STICKY` than bit 5 changes. -/
def Obligations.DenormalDiagnosticOncePerBlock : Prop :=
  ∀ (s t : State) (n : Nat) (x₀ : Word) (rest : List Word), 1 ≤ n → n ≤ 512 → s.dataIn = x₀ :: rest →
    exec (.processBlock n) s = .next t →
    (∀ b, b ≠ 5 → t.sticky.getLsbD b = s.sticky.getLsbD b) ∧
    (x₀.extractLsb' 52 11 = 0 ∧ x₀.extractLsb' 0 52 ≠ 0 →
      t.diagCount = s.diagCount + 1 ∧ PostsOne ⟨.denormal, s.diagCount + 1⟩ s t) ∧
    (¬ (x₀.extractLsb' 52 11 = 0 ∧ x₀.extractLsb' 0 52 ≠ 0) →
      t.diagCount = s.diagCount ∧ t.sticky = s.sticky ∧ PostsNone s t)

/-- R122: the empty block only clears `LAST_ERR`. -/
def Obligations.EmptyBlockIsNoOp : Prop :=
  ∀ s : State, exec (.processBlock 0) s = .next { s with lastErr := 0 }

/-- R121: a block of more than 512 samples is rejected with code 3 after taking its data words, posts no DENORMAL event
and changes no other state; a block of exactly 512 is accepted. -/
def Obligations.OversizedBlockIsRejected : Prop :=
  (∀ (s : State) (n : Nat), 512 < n → n < 65536 → n ≤ s.dataIn.length →
    ∃ t, exec (.processBlock n) s = .next t ∧
      EndsRejected .blockTooLong (BitVec.ofNat 32 (0x03000000 + n)) n s t) ∧
  ∀ s : State, Inv s → 512 ≤ s.dataIn.length → s.hasRoom 512 = true →
    ∃ t, exec (.processBlock 512) s = .next t ∧ t.lastErr = 0

/-- I1: with `COEF_LEN = 0`, which R25 makes unreachable, an accepted block that has samples is refused. -/
def Obligations.ZeroLengthBlockIsRefused : Prop :=
  ∀ (s : State) (n : Nat), s.coefLen = 0 → 1 ≤ n → n ≤ 512 → n ≤ s.dataIn.length →
    exec (.processBlock n) s = .refused .zeroLength

/-- R131, third case: at a given filter, the outputs from index `L-1` on use the current block's inputs only, whatever
the history. -/
def Obligations.LateOutputsIgnoreHistory : Prop :=
  ∀ (s s' t t' : State) (n : Nat), Inv s → Inv s' → 1 ≤ n → n ≤ 512 →
    s'.coef = s.coef → s'.coefLen = s.coefLen → s'.dataIn = s.dataIn →
    exec (.processBlock n) s = .next t → exec (.processBlock n) s' = .next t' →
    ∀ j, s.coefLen.toNat - 1 ≤ j → j < n →
      t.dataOut[s.dataOut.length + j]? = t'.dataOut[s'.dataOut.length + j]?

/-- R139, R141: no output word is `-0.0`, and an output word that is a NaN is the canonical one. -/
def Obligations.OutputWordsAreCanonical : Prop :=
  ∀ (s t : State) (n : Nat) (ys : List Word), exec (.processBlock n) s = .next t → t.dataOut = s.dataOut ++ ys →
    ∀ y ∈ ys, y ≠ 0x8000000000000000#64 ∧ (isNaN64 y = true → y = 0x7FF8000000000000#64)

/-- R134 for one split: one block of `n + m` samples and two blocks of `n` and `m` give the same output words and the
same retained history. -/
def Obligations.SplittingABlockKeepsOutputs : Prop :=
  ∀ (s : State) (n m : Nat), Inv s → 1 ≤ n → 1 ≤ m → n + m ≤ 512 → n + m ≤ s.dataIn.length →
    s.hasRoom (n + m) = true →
    ∃ t₁ t₂ t, exec (.processBlock n) s = .next t₁ ∧ exec (.processBlock m) t₁ = .next t₂ ∧
      exec (.processBlock (n + m)) s = .next t ∧ t₂.dataOut = t.dataOut ∧
      ∀ i, i < s.coefLen.toNat - 1 → Memory.read t₂.hist i = Memory.read t.hist i

/-- R132, R134: from a silent retained history, a stream of samples split into blocks of any sizes from 1 to 512 gives,
for sample `j`, the ascending sum over `COEF[k] * s[j-k]` with `+0.0` before the first sample, whatever the split; and
the retained history then holds the last `L-1` samples, newest at `L-2`. -/
def Obligations.StreamOutputsDoNotDependOnTheSplit : Prop :=
  ∀ (s : State) (sizes : List Nat), Inv s → (∀ n ∈ sizes, 1 ≤ n ∧ n ≤ 512) → sizes.sum ≤ s.dataIn.length →
    s.hasRoom sizes.sum = true → (∀ i, i < s.coefLen.toNat - 1 → Memory.read s.hist i = 0) →
    ∃ t, runBlocks sizes s = .next t ∧
      t.dataOut = s.dataOut ++ (List.range sizes.sum).map (fun j =>
        ascendingSum (Memory.read s.coef) (fun k => if k ≤ j then s.dataIn.getD (j - k) 0 else 0) s.coefLen.toNat) ∧
      ∀ j, j < s.coefLen.toNat - 1 → Memory.read t.hist (s.coefLen.toNat - 2 - j) =
        if j + 1 ≤ sizes.sum then s.dataIn.getD (sizes.sum - 1 - j) 0 else 0

/-- R135: the impulse response.  From a silent retained history and finite coefficients, the block `1.0, +0.0, …` gives
the coefficients in forward order (`+0.0` for a coefficient `-0.0`) and then `+0.0`. -/
def Obligations.ImpulseGivesTheCoefficients : Prop :=
  ∀ (s : State) (n : Nat) (rest : List Word), Inv s → n < 512 → s.hasRoom (n + 1) = true →
    (∀ i, i < s.coefLen.toNat - 1 → Memory.read s.hist i = 0) →
    (∀ k, k < s.coefLen.toNat → isFinite64 (Memory.read s.coef k) = true) →
    s.dataIn = 0x3FF0000000000000#64 :: (List.replicate n 0#64 ++ rest) →
    ∃ t, exec (.processBlock (n + 1)) s = .next t ∧
      t.dataOut = s.dataOut ++ (List.range (n + 1)).map (fun j =>
        if j < s.coefLen.toNat ∧ Memory.read s.coef j ≠ 0x8000000000000000#64 then Memory.read s.coef j else 0#64)

/-- §8 through R213 (vector SRC-1): from a silent retained history and finite coefficients, a silent block gives a
silent block. -/
def Obligations.SilenceGivesSilence : Prop :=
  ∀ (s : State) (n : Nat) (rest : List Word), Inv s → 1 ≤ n → n ≤ 512 → s.hasRoom n = true →
    (∀ i, i < s.coefLen.toNat - 1 → Memory.read s.hist i = 0) →
    (∀ k, k < s.coefLen.toNat → isFinite64 (Memory.read s.coef k) = true) →
    s.dataIn = List.replicate n 0#64 ++ rest →
    ∃ t, exec (.processBlock n) s = .next t ∧ t.dataOut = s.dataOut ++ List.replicate n 0#64

/-- R144, R164, R186: the diagnostic counter, the status registers, `ACC` and the event channel influence no filtering:
from two states that agree on the filter, the history and the data channels, every command leads to two states that
agree on them again, with the same output words but for those of GET_STATUS. -/
def Obligations.StatusNeverInfluencesFiltering : Prop :=
  ∀ (i : Instr) (s s' t : State), s'.coef = s.coef → s'.coefLen = s.coefLen → s'.hist = s.hist →
    s'.dataIn = s.dataIn → s'.outRoom = s.outRoom → exec i s = .next t →
    ∃ t' ys ys', exec i s' = .next t' ∧ t'.coef = t.coef ∧ t'.coefLen = t.coefLen ∧ t'.hist = t.hist ∧
      t'.dataIn = t.dataIn ∧ t'.outRoom = t.outRoom ∧
      t.dataOut = s.dataOut ++ ys ∧ t'.dataOut = s'.dataOut ++ ys' ∧ (i ≠ .getStatus → ys' = ys)

/-! ### Control and readback -/

/-- R160: NOP clears `LAST_ERR` and does nothing else. -/
def Obligations.NopOnlyClearsLastErr : Prop :=
  ∀ s : State, exec .nop s = .next { s with lastErr := 0 }

/-- R161: GET_COEFS completes and emits `COEF[0..L-1]` in order, bit for bit as stored; nothing else changes. -/
def Obligations.GetCoefsEmitsTheFilter : Prop :=
  ∀ s : State, Inv s → s.hasRoom s.coefLen.toNat = true →
    ∃ t ys, exec .getCoefs s = .next t ∧ ys.length = s.coefLen.toNat ∧
      (∀ k, k < s.coefLen.toNat → ys[k]? = some (Memory.read s.coef k)) ∧ Emits ys s t ∧
      EndsNormally s t ∧ KeepsFilter s t ∧ KeepsHistory s t ∧ TakesData 0 s t

/-- R162: GET_HISTORY completes and emits all 1023 words of `HIST`, index 0 first, whatever `COEF_LEN` is; nothing else
changes. -/
def Obligations.GetHistoryEmitsTheBuffer : Prop :=
  ∀ s : State, s.hasRoom 1023 = true →
    ∃ t ys, exec .getHistory s = .next t ∧ ys.length = 1023 ∧
      (∀ i, i < 1023 → ys[i]? = some (Memory.read s.hist i)) ∧ Emits ys s t ∧
      EndsNormally s t ∧ KeepsFilter s t ∧ KeepsHistory s t ∧ TakesData 0 s t

/-- R33, R163: GET_STATUS completes and emits the status word, with `LAST_ERR` as it was before, and then `DIAG_COUNT`;
nothing else changes. -/
def Obligations.GetStatusEmitsTheStatus : Prop :=
  ∀ s : State, s.hasRoom 2 = true →
    ∃ t w, exec .getStatus s = .next t ∧ Emits [w, s.diagCount] s t ∧
      w.extractLsb' 0 4 = s.lastErr ∧ w.extractLsb' 4 4 = 0 ∧ w.extractLsb' 8 8 = s.sticky ∧
      w.extractLsb' 16 10 = s.coefLen ∧ w.extractLsb' 26 38 = 0 ∧
      EndsNormally s t ∧ KeepsFilter s t ∧ KeepsHistory s t ∧ TakesData 0 s t

/-- R164: NOP and the readbacks change no state but `LAST_ERR`, always to 0 (and the channel their words go to); a
command that runs after one emits the words it would have emitted without it, GET_STATUS apart. -/
def Obligations.ReadbacksChangeOnlyLastErr : Prop :=
  ∀ (i : Instr) (s t : State), i ∈ [Instr.nop, .getCoefs, .getHistory, .getStatus] → exec i s = .next t →
    t = { s with lastErr := 0, dataOut := t.dataOut, outRoom := t.outRoom } ∧
    ∀ (c : Instr) (u : State), s.outRoom = none → c ≠ .getStatus → exec c s = .next u →
      ∃ u' ys, exec c t = .next u' ∧ u.dataOut = s.dataOut ++ ys ∧ u'.dataOut = t.dataOut ++ ys

/-! ### Arithmetic -/

/-- R12: division of integers rounds to nearest, ties to even. -/
def Obligations.RoundingIsNearestTiesToEven : Prop :=
  ∀ m k : Nat, 0 < k →
    2 * |(k : Int) * (roundDiv m k : Int) - (m : Int)| ≤ k ∧
    (2 * |(k : Int) * (roundDiv m k : Int) - (m : Int)| = k → roundDiv m k % 2 = 0)

/-- R12: a finite binary64 sum is as near to the exact sum as any binary64 value, and where another value is equally
near its own fraction is even. -/
def Obligations.SumIsTheNearestBinary64 : Prop :=
  ∀ a b : Word, isFinite64 a = true → isFinite64 b = true → isFinite64 (fadd64 a b) = true →
    ∀ z : Word, isFinite64 z = true →
      |valueUnits (fadd64 a b) - (valueUnits a + valueUnits b)| ≤ |valueUnits z - (valueUnits a + valueUnits b)| ∧
      (valueUnits z ≠ valueUnits (fadd64 a b) →
        |valueUnits (fadd64 a b) - (valueUnits a + valueUnits b)| = |valueUnits z - (valueUnits a + valueUnits b)| →
        fracField (fadd64 a b) % 2 = 0)

/-- R12, R140: a finite binary64 product is as near to the exact product as any binary64 value, and where another value
is equally near its own fraction is even.  The product of two values in units of 2^-1074 is in units of 2^-2148. -/
def Obligations.ProductIsTheNearestBinary64 : Prop :=
  ∀ a b : Word, isFinite64 a = true → isFinite64 b = true → isFinite64 (fmul64 a b) = true →
    ∀ z : Word, isFinite64 z = true →
      |valueUnits (fmul64 a b) * 2 ^ 1074 - valueUnits a * valueUnits b| ≤
        |valueUnits z * 2 ^ 1074 - valueUnits a * valueUnits b| ∧
      (valueUnits z ≠ valueUnits (fmul64 a b) →
        |valueUnits (fmul64 a b) * 2 ^ 1074 - valueUnits a * valueUnits b| =
          |valueUnits z * 2 ^ 1074 - valueUnits a * valueUnits b| →
        fracField (fmul64 a b) % 2 = 0)

/-- R138: a sum of finite words is an infinity of the sum's sign exactly when its magnitude reaches the largest finite
value and half a unit in its last place. -/
def Obligations.SumOverflowsToInfinity : Prop :=
  ∀ a b : Word, isFinite64 a = true → isFinite64 b = true →
    (|valueUnits a + valueUnits b| < (2 ^ 54 - 1) * 2 ^ 2044 → isFinite64 (fadd64 a b) = true) ∧
    ((2 ^ 54 - 1) * 2 ^ 2044 ≤ |valueUnits a + valueUnits b| →
      fadd64 a b = if valueUnits a + valueUnits b < 0 then 0xFFF0000000000000#64 else 0x7FF0000000000000#64)

/-- R138: a product of finite words is an infinity of the product's sign exactly when its magnitude reaches the largest
finite value and half a unit in its last place. -/
def Obligations.ProductOverflowsToInfinity : Prop :=
  ∀ a b : Word, isFinite64 a = true → isFinite64 b = true →
    (|valueUnits a * valueUnits b| < (2 ^ 54 - 1) * 2 ^ 3118 → isFinite64 (fmul64 a b) = true) ∧
    ((2 ^ 54 - 1) * 2 ^ 3118 ≤ |valueUnits a * valueUnits b| →
      fmul64 a b = if valueUnits a * valueUnits b < 0 then 0xFFF0000000000000#64 else 0x7FF0000000000000#64)

/-- R138, R139: NaN operands, `inf * 0` and `inf + (-inf)` give the canonical NaN; other operations on infinities give
infinities; a NaN result is always the canonical NaN. -/
def Obligations.SpecialValuesFollowIeee754 : Prop :=
  ∀ a b : Word,
    (isNaN64 a = true ∨ isNaN64 b = true →
      fmul64 a b = 0x7FF8000000000000#64 ∧ fadd64 a b = 0x7FF8000000000000#64) ∧
    (isInf64 a = true → isZero64 b = true →
      fmul64 a b = 0x7FF8000000000000#64 ∧ fmul64 b a = 0x7FF8000000000000#64) ∧
    (isInf64 a = true → isNaN64 b = false → isZero64 b = false →
      fmul64 a b = (if signBit a = signBit b then 0x7FF0000000000000#64 else 0xFFF0000000000000#64) ∧
      fmul64 b a = fmul64 a b) ∧
    (isInf64 a = true → isInf64 b = true → signBit a ≠ signBit b → fadd64 a b = 0x7FF8000000000000#64) ∧
    (isInf64 a = true → isFinite64 b = true → fadd64 a b = a ∧ fadd64 b a = a) ∧
    (isNaN64 (fmul64 a b) = true → fmul64 a b = 0x7FF8000000000000#64) ∧
    (isNaN64 (fadd64 a b) = true → fadd64 a b = 0x7FF8000000000000#64)

/-- R140: gradual underflow.  A sum whose exact value is below 2^53 units of 2^-1074 is exact: no subnormal operand or
result is flushed. -/
def Obligations.SmallSumsAreExact : Prop :=
  ∀ a b : Word, isFinite64 a = true → isFinite64 b = true → |valueUnits a + valueUnits b| < 2 ^ 53 →
    valueUnits (fadd64 a b) = valueUnits a + valueUnits b

/-- R141: a sum is `-0.0` only when both addends are `-0.0`. -/
def Obligations.SumIsNegZeroOnlyFromNegZeros : Prop :=
  ∀ a b : Word, fadd64 a b = 0x8000000000000000#64 ↔ a = 0x8000000000000000#64 ∧ b = 0x8000000000000000#64

/-- R135: a product with `1.0` is exact. -/
def Obligations.ProductWithOneIsExact : Prop :=
  ∀ c : Word, isNaN64 c = false → fmul64 c 0x3FF0000000000000#64 = c ∧ fmul64 0x3FF0000000000000#64 c = c

/-! ### Reset and invariants -/

/-- R36, R106: the state after reset.  (ACC has no reset value in the spec; the model's 0, log entry 1, is no part of
this statement.) -/
def Obligations.ResetStateIsAsListed : Prop :=
  (∀ k, k < 63 → defaultCoefs[k]? = some (Memory.read State.reset.coef k)) ∧ defaultCoefs.length = 63 ∧
  (∀ k, 63 ≤ k → Memory.read State.reset.coef k = 0x0000000000000000#64) ∧
  State.reset.coefLen = 63 ∧ (∀ i, Memory.read State.reset.hist i = 0x0000000000000000#64) ∧
  State.reset.diagCount = 0 ∧ State.reset.lastErr = 0 ∧ State.reset.sticky = 0 ∧ State.reset.events = [] ∧
  ∃ t, exec .getCoefs State.reset = .next t ∧ t.dataOut = defaultCoefs

/-- R210, R211, R212: the reset input, at any state: every element of state gets its reset value, no event is posted, no
data word is emitted, and of the input channels only the words inside the block are lost. -/
def Obligations.ResetInputRestoresReset : Prop :=
  ∀ (a b : Nat) (s : State),
    (assertReset a b s).coef = State.reset.coef ∧ (assertReset a b s).coefLen = 63 ∧
    (assertReset a b s).hist = State.reset.hist ∧ (assertReset a b s).diagCount = 0 ∧
    (assertReset a b s).lastErr = 0 ∧ (assertReset a b s).sticky = 0 ∧
    (assertReset a b s).events = [] ∧ (assertReset a b s).evtHeld = 0 ∧ (assertReset a b s).dataOut = [] ∧
    (assertReset a b s).cmdIn = s.cmdIn.drop a ∧ (assertReset a b s).dataIn = s.dataIn.drop b

/-- R36 with R25, R30, R31, R51: the invariant holds after reset.  Its two conjuncts about `ACC` rest on the model's reset
value 0 (log entry 1, DESIGN CHOICE). -/
def Obligations.ResetSatisfiesInvariant : Prop := Inv State.reset

/-- R25, R30, R31, R51, R81, R133, R139, R141, R186: every step keeps the invariant: the RAMs in canonical form and
within their sizes, `COEF_LEN` legal, the status fields legal, the event channel within its depth, and `ACC` neither
`-0.0` nor a NaN other than the canonical one. -/
def Obligations.StepKeepsInvariant : Prop :=
  ∀ s t : State, Inv s → step s = .next t → Inv t

/-- R187, R210, R215, R217: nothing the host does breaks the invariant.  After the reset input the two conjuncts of `Inv`
about `ACC` rest on the model's reset value 0 (log entry 1, DESIGN CHOICE; R36 leaves `ACC` unspecified). -/
def Obligations.HostActionsKeepInvariant : Prop :=
  ∀ s : State, Inv s →
    (∀ w data, Inv (hostSend w data s)) ∧ (∀ k, Inv (hostTakeEvents k s)) ∧ (∀ r, Inv (hostTakeOutputs r s)) ∧
    ∀ a b, Inv (assertReset a b s)

/-! ### Command streams -/

/-- R83, R215: a line the assembler accepts, `.cmd` apart, encodes to a word that decodes, followed by exactly the data
words its command takes. -/
def Obligations.AssembledLinesAreWholeCommands : Prop :=
  ∀ l : AsmLine, asmAccepts l = true → (∀ w vs, l ≠ .raw w vs) →
    ∃ i, decode (asmEncode l).1 = .ok i ∧ (asmEncode l).2.length = i.dataInCount

/-! ### The open outcome of an event -/

/-- R186, D15, I9: for every event, in every state, the event channel admits both outcomes: appended, or dropped with
`STICKY` bit 5 set and no other bit changed; and the block's own offer is one of these, the host's timing being free
(log entry 4). -/
def Obligations.EveryEventMayBeDeliveredOrDropped : Prop :=
  ∀ (kind : EventKind) (payload : BitVec 64) (s : State),
    (∃ taken full, (offerEvent taken full kind payload s).events = s.events ++ [⟨kind, payload⟩] ∧
      (offerEvent taken full kind payload s).sticky = s.sticky) ∧
    (∃ taken full, (offerEvent taken full kind payload s).events = s.events ∧
      ∀ b, (offerEvent taken full kind payload s).sticky.getLsbD b = (s.sticky.getLsbD b || decide (b = 5))) ∧
    ∃ taken full, postEvent kind payload s = offerEvent taken full kind payload s
end

