-- ==== Sys2Proof/Laws/Decode.lean ====
section
/-! SUPPORT. The fields of a command word (R70). -/

namespace Sys2Proof

/-- R70: the opcode of a word put together from its fields. -/
theorem opcField_append (opc rsv : BitVec 8) (cnt : BitVec 16) : opcField (opc ++ rsv ++ cnt : CmdWord) = opc := by
  apply BitVec.eq_of_getLsbD_eq
  intro k hk
  have e1 : ¬ 24 + k < 16 := by omega
  have e2 : ¬ 24 + k - 16 < 8 := by omega
  have e3 : 24 + k - 16 - 8 = k := by omega
  simp only [opcField, BitVec.getLsbD_append, BitVec.getLsbD_extractLsb', e1, e2, e3, if_false]
  simp [hk]

/-- R70: the reserved field of a word put together from its fields. -/
theorem rsvField_append (opc rsv : BitVec 8) (cnt : BitVec 16) : rsvField (opc ++ rsv ++ cnt : CmdWord) = rsv := by
  apply BitVec.eq_of_getLsbD_eq
  intro k hk
  have e1 : ¬ 16 + k < 16 := by omega
  have e2 : 16 + k - 16 < 8 := by omega
  simp only [rsvField, BitVec.getLsbD_append, BitVec.getLsbD_extractLsb', e1, e2, if_false]
  simp [hk]

/-- R70, R73: the count of a word put together from its fields. -/
theorem countField_append (opc rsv : BitVec 8) (cnt : BitVec 16) :
    countField (opc ++ rsv ++ cnt : CmdWord) = cnt.toNat := by
  unfold countField
  congr 1
  apply BitVec.eq_of_getLsbD_eq
  intro k hk
  simp only [BitVec.getLsbD_append, BitVec.getLsbD_extractLsb']
  simp [hk]

/-- R70: a command word is its three fields. -/
theorem append_fields (w : CmdWord) : opcField w ++ rsvField w ++ w.extractLsb' 0 16 = w := by
  apply BitVec.eq_of_getLsbD_eq
  intro k hk
  simp only [opcField, rsvField, BitVec.getLsbD_append, BitVec.getLsbD_extractLsb']
  split
  · simp [*]
  · split
    · rw [decide_eq_true (by omega : k - 16 < 8), Bool.true_and, show 16 + (k - 16) = k by omega]
    · rw [decide_eq_true (by omega : k - 16 - 8 < 8), Bool.true_and, show 24 + (k - 16 - 8) = k by omega]

/-- R73: COUNT has 16 bits. -/
theorem countField_lt (w : CmdWord) : countField w < 65536 := (w.extractLsb' 0 16).isLt

/-- R72, R77: the opcodes that select a command, and which one. -/
theorem commandOf_some {opc : BitVec 8} {cnt : Nat} {i : Instr} (h : commandOf opc cnt = some i) :
    i.opcode = opc ∧ (i.hasCount = true → i.countValue = cnt) ∧ (i.hasCount = false → i.countValue = 0) := by
  unfold commandOf at h
  repeat' split at h
  all_goals first
    | (cases h; done)
    | (cases h; subst opc; exact ⟨rfl, fun _ => rfl, fun h => nomatch h⟩)
    | (cases h; subst opc; exact ⟨rfl, fun h => (nomatch h), fun _ => rfl⟩)

/-- R76: everything an accepted word is. -/
theorem decode_ok {w : CmdWord} {i : Instr} (h : decode w = .ok i) :
    commandOf (opcField w) (countField w) = some i ∧ rsvField w = 0 ∧ (i.hasCount = false → countField w = 0) := by
  unfold decode at h
  cases hc : commandOf (opcField w) (countField w) with
  | none => simp only [hc] at h; cases h
  | some j =>
    simp only [hc] at h
    split at h
    · cases h
    · split at h
      · cases h
      · cases h
        exact ⟨rfl, by simpa using ‹¬ _ ≠ _›, fun hh => by_contra fun hn => ‹¬ (_ ∧ _)› ⟨hh, hn⟩⟩

end Sys2Proof
end

