-- ==== Sys2Proof/Laws/Memory.lean ====
section
/-! SUPPORT. Laws of the word-indexed RAMs: read after write, and that every operation keeps the canonical form. -/

namespace Sys2Proof.Machine

@[simp] theorem read_nil (a : Nat) : Memory.read [] a = 0 := rfl

theorem read_cons (k : Nat) (v : Word) (m : Memory) (a : Nat) :
    Memory.read ((k, v) :: m) a = if k = a then v else Memory.read m a := rfl

theorem wfFrom_cons (k : Nat) (v : Word) (m : Memory) (lo size : Nat) :
    Memory.wfFrom lo size ((k, v) :: m) = true ↔
      lo ≤ k ∧ k < size ∧ v ≠ 0 ∧ Memory.wfFrom (k + 1) size m = true := by
  rw [Memory.wfFrom]
  simp only [Bool.and_eq_true, decide_eq_true_eq, and_assoc]
  rfl

theorem wfFrom_mono {m : Memory} {lo lo' size : Nat} (h : lo' ≤ lo) (hm : Memory.wfFrom lo size m = true) :
    Memory.wfFrom lo' size m = true := by
  cases m with
  | nil => rfl
  | cons c m =>
    obtain ⟨k, v⟩ := c
    rw [wfFrom_cons] at hm ⊢
    exact ⟨h.trans hm.1, hm.2⟩

/-- Below its first index a canonical RAM reads as `+0.0`. -/
theorem read_below {m : Memory} {lo size a : Nat} (hm : Memory.wfFrom lo size m = true) (ha : a < lo) :
    Memory.read m a = 0 := by
  induction m generalizing lo with
  | nil => rfl
  | cons c m ih =>
    obtain ⟨k, v⟩ := c
    rw [wfFrom_cons] at hm
    rw [read_cons, if_neg (by omega)]
    exact ih hm.2.2.2 (by omega)

/-- At and beyond its size a canonical RAM reads as `+0.0`. -/
theorem read_beyond {m : Memory} {lo size a : Nat} (hm : Memory.wfFrom lo size m = true) (ha : size ≤ a) :
    Memory.read m a = 0 := by
  induction m generalizing lo with
  | nil => rfl
  | cons c m ih =>
    obtain ⟨k, v⟩ := c
    rw [wfFrom_cons] at hm
    rw [read_cons, if_neg (by omega)]
    exact ih hm.2.2.2

theorem write_wfFrom {m : Memory} {lo size a : Nat} (v : Word) (hm : Memory.wfFrom lo size m = true) (hlo : lo ≤ a)
    (ha : a < size) : Memory.wfFrom lo size (Memory.write m a v) = true := by
  induction m generalizing lo with
  | nil =>
    rw [Memory.write]
    split
    · rfl
    · rw [wfFrom_cons]; exact ⟨hlo, ha, ‹_›, rfl⟩
  | cons c m ih =>
    obtain ⟨k, w⟩ := c
    have hm' := hm
    rw [wfFrom_cons] at hm
    obtain ⟨h1, h2, h3, h4⟩ := hm
    rw [Memory.write]
    split
    · rw [wfFrom_cons]; exact ⟨h1, h2, h3, ih h4 (by omega)⟩
    · split
      · split
        · exact wfFrom_mono (by omega) h4
        · rw [wfFrom_cons]; exact ⟨hlo, ha, ‹_›, wfFrom_mono (by omega) h4⟩
      · split
        · exact hm'
        · rw [wfFrom_cons]
          exact ⟨hlo, ha, ‹_›, by rw [wfFrom_cons]; exact ⟨by omega, h2, h3, h4⟩⟩

/-- A write inside the RAM keeps the canonical form. -/
theorem write_wf {m : Memory} {size a : Nat} (v : Word) (hm : Memory.wf size m = true) (ha : a < size) :
    Memory.wf size (Memory.write m a v) = true := write_wfFrom v hm (Nat.zero_le a) ha

theorem read_write_from {m : Memory} {lo size : Nat} (a : Nat) (v : Word) (b : Nat)
    (hm : Memory.wfFrom lo size m = true) :
    Memory.read (Memory.write m a v) b = if b = a then v else Memory.read m b := by
  induction m generalizing lo with
  | nil =>
    rw [Memory.write]
    split
    · simp_all [Memory.unlisted]
    · simp [Memory.read, Memory.unlisted, eq_comm]
  | cons c m ih =>
    obtain ⟨k, w⟩ := c
    rw [wfFrom_cons] at hm
    obtain ⟨h1, h2, h3, h4⟩ := hm
    have hb : ∀ x ≤ k, Memory.read m x = 0 := fun x hx => read_below h4 (by omega)
    rw [Memory.write]
    split
    · rw [read_cons, read_cons, ih h4]
      split <;> split <;> first | rfl | omega
    · split
      · subst ‹k = a›
        split
        · rw [read_cons]
          by_cases hbk : b = k
          · rw [if_pos hbk, hb b hbk.le]; exact ‹v = _›.symm
          · rw [if_neg hbk, if_neg (Ne.symm hbk)]
        · rw [read_cons, read_cons]
          by_cases hbk : b = k
          · rw [if_pos hbk.symm, if_pos hbk]
          · rw [if_neg (Ne.symm hbk), if_neg hbk, if_neg (Ne.symm hbk)]
      · split
        · by_cases hba : b = a
          · subst hba
            rw [if_pos rfl, read_cons, if_neg (by omega), hb b (by omega)]
            exact ‹v = _›.symm
          · rw [if_neg hba]
        · rw [read_cons]
          by_cases hba : b = a
          · rw [if_pos hba.symm, if_pos hba]
          · rw [if_neg (Ne.symm hba), if_neg hba]

/-- Read after write: the written index reads as the written word, every other index as before. -/
theorem read_write {m : Memory} {size : Nat} (a : Nat) (v : Word) (b : Nat) (hm : Memory.wf size m = true) :
    Memory.read (Memory.write m a v) b = if b = a then v else Memory.read m b := read_write_from a v b hm

/-- A run of ascending writes inside the RAM keeps the canonical form. -/
theorem writeFrom_wf {m : Memory} {size : Nat} (vs : List Word) (base : Nat) (hm : Memory.wf size m = true)
    (hs : base + vs.length ≤ size) : Memory.wf size (Memory.writeFrom m base vs) = true := by
  induction vs generalizing m base with
  | nil => exact hm
  | cons v vs ih =>
    rw [List.length_cons] at hs
    exact ih (base + 1) (write_wf v hm (by omega)) (by omega)

/-- Reading after a run of ascending writes. -/
theorem read_writeFrom {m : Memory} {size : Nat} (vs : List Word) (base b : Nat) (hm : Memory.wf size m = true)
    (hs : base + vs.length ≤ size) :
    Memory.read (Memory.writeFrom m base vs) b =
      if base ≤ b ∧ b < base + vs.length then vs.getD (b - base) 0 else Memory.read m b := by
  induction vs generalizing m base with
  | nil => rw [if_neg (by simp)]; rfl
  | cons v vs ih =>
    rw [List.length_cons] at hs ⊢
    rw [Memory.writeFrom, ih (base + 1) (write_wf v hm (by omega)) (by omega), read_write base v b hm]
    by_cases h0 : b = base
    · subst h0
      rw [if_neg (by omega), if_pos rfl, if_pos (by omega), Nat.sub_self]
      rfl
    · rw [if_neg h0]
      by_cases h1 : base + 1 ≤ b ∧ b < base + 1 + vs.length
      · rw [if_pos h1, if_pos (by omega), show b - base = (b - (base + 1)) + 1 by omega]
        rfl
      · rw [if_neg h1, if_neg (by omega)]

theorem ofWords_wfFrom (vs : List Word) (base size : Nat) (hs : base + vs.length ≤ size) :
    Memory.wfFrom base size (Memory.ofWords base vs) = true := by
  induction vs generalizing base with
  | nil => rfl
  | cons v vs ih =>
    rw [List.length_cons] at hs
    rw [Memory.ofWords]
    split
    · exact wfFrom_mono (by omega) (ih (base + 1) (by omega))
    · rw [wfFrom_cons]; exact ⟨le_rfl, by omega, ‹_›, ih (base + 1) (by omega)⟩

/-- A RAM made from a list of words is in canonical form. -/
theorem ofWords_wf (vs : List Word) (base size : Nat) (hs : base + vs.length ≤ size) :
    Memory.wf size (Memory.ofWords base vs) = true := wfFrom_mono (Nat.zero_le _) (ofWords_wfFrom vs base size hs)

/-- A RAM made from a list of words reads as the list, and as `+0.0` elsewhere. -/
theorem read_ofWords (vs : List Word) (base b : Nat) :
    Memory.read (Memory.ofWords base vs) b = if base ≤ b then vs.getD (b - base) 0 else 0 := by
  induction vs generalizing base with
  | nil => simp [Memory.ofWords]
  | cons v vs ih =>
    rw [Memory.ofWords]
    rcases lt_trichotomy b base with h | h | h
    · rw [if_neg (show ¬ base ≤ b by omega)]
      split
      · rw [ih, if_neg (by omega)]
      · rw [read_cons, if_neg (by omega), ih, if_neg (by omega)]
    · subst h
      rw [if_pos (le_refl b), Nat.sub_self]
      split
      · rw [ih, if_neg (by omega)]; exact ‹v = _›.symm
      · rw [read_cons, if_pos rfl]; rfl
    · have hb : b - base = (b - (base + 1)) + 1 := by omega
      rw [if_pos h.le, hb]
      split
      · rw [ih, if_pos (by omega)]; rfl
      · rw [read_cons, if_neg (by omega), ih, if_pos (by omega)]; rfl

/-- R129: the ascending copy keeps the canonical form. -/
theorem copyDown_wf {m : Memory} {size : Nat} (n c : Nat) (hm : Memory.wf size m = true) (hs : c ≤ size) :
    Memory.wf size ((List.range c).foldl (fun m i => Memory.write m i (Memory.read m (n + i))) m) = true := by
  induction c with
  | zero => exact hm
  | succ c ih =>
    rw [List.range_succ, List.foldl_append]
    exact write_wf _ (ih (by omega)) (by omega)

/-- R129: for `n ≥ 1` the ascending copy equals a copy from a snapshot taken before it. -/
theorem read_copyDown {m : Memory} {size : Nat} (n c b : Nat) (hn : 1 ≤ n) (hm : Memory.wf size m = true)
    (hs : c ≤ size) :
    Memory.read ((List.range c).foldl (fun m i => Memory.write m i (Memory.read m (n + i))) m) b =
      if b < c then Memory.read m (n + b) else Memory.read m b := by
  induction c generalizing b with
  | zero => rw [if_neg (Nat.not_lt_zero b)]; rfl
  | succ c ih =>
    rw [List.range_succ, List.foldl_append]
    simp only [List.foldl_cons, List.foldl_nil]
    rw [read_write c _ b (copyDown_wf n c hm (by omega)), ih (n + c) (by omega),
      if_neg (show ¬ n + c < c by omega)]
    by_cases hb : b = c
    · rw [if_pos hb, if_pos (by omega), hb]
    · rw [if_neg hb, ih b (by omega)]
      by_cases h : b < c
      · rw [if_pos h, if_pos (by omega)]
      · rw [if_neg h, if_neg (by omega)]

/-- R125, R133: the append keeps the canonical form. -/
theorem appendBlock_wf {m : Memory} {size L : Nat} (xs : List Word) (hm : Memory.wf size m = true)
    (hs : L - 1 + xs.length ≤ size) : Memory.wf size (appendBlock L xs m) = true := writeFrom_wf xs (L - 1) hm hs

/-- R125: the append writes the block at offset `L-1` and nothing else. -/
theorem read_appendBlock {m : Memory} {size L : Nat} (xs : List Word) (b : Nat) (hm : Memory.wf size m = true)
    (hs : L - 1 + xs.length ≤ size) :
    Memory.read (appendBlock L xs m) b =
      if L - 1 ≤ b ∧ b < L - 1 + xs.length then xs.getD (b - (L - 1)) 0 else Memory.read m b :=
  read_writeFrom xs (L - 1) b hm hs

/-- R129, R133: the shift keeps the canonical form. -/
theorem shiftDown_wf {m : Memory} {size L : Nat} (n : Nat) (hm : Memory.wf size m = true) (hs : L - 1 ≤ size) :
    Memory.wf size (shiftDown L n m) = true := copyDown_wf n (L - 1) hm hs

/-- R129, R130: the shift moves words `n .. n+L-2` to `0 .. L-2` and writes nothing else. -/
theorem read_shiftDown {m : Memory} {size L : Nat} (n b : Nat) (hn : 1 ≤ n) (hm : Memory.wf size m = true)
    (hs : L - 1 ≤ size) :
    Memory.read (shiftDown L n m) b = if b < L - 1 then Memory.read m (n + b) else Memory.read m b :=
  read_copyDown n (L - 1) b hn hm hs

end Sys2Proof.Machine
end

