-- ==== Sys2Proof/Laws/State.lean ====
section
/-! SUPPORT. One lemma per field per update of the state: later proofs cite these and unfold no record update. -/

namespace Sys2Proof.Machine

/-! R30: a normal completion. -/

@[simp] theorem complete_coef (s : State) : (complete s).coef = s.coef := rfl
@[simp] theorem complete_coefLen (s : State) : (complete s).coefLen = s.coefLen := rfl
@[simp] theorem complete_hist (s : State) : (complete s).hist = s.hist := rfl
@[simp] theorem complete_acc (s : State) : (complete s).acc = s.acc := rfl
@[simp] theorem complete_diagCount (s : State) : (complete s).diagCount = s.diagCount := rfl
@[simp] theorem complete_lastErr (s : State) : (complete s).lastErr = 0 := rfl
@[simp] theorem complete_sticky (s : State) : (complete s).sticky = s.sticky := rfl
@[simp] theorem complete_cmdIn (s : State) : (complete s).cmdIn = s.cmdIn := rfl
@[simp] theorem complete_dataIn (s : State) : (complete s).dataIn = s.dataIn := rfl
@[simp] theorem complete_dataOut (s : State) : (complete s).dataOut = s.dataOut := rfl
@[simp] theorem complete_outRoom (s : State) : (complete s).outRoom = s.outRoom := rfl
@[simp] theorem complete_events (s : State) : (complete s).events = s.events := rfl
@[simp] theorem complete_evtTaken (s : State) : (complete s).evtTaken = s.evtTaken := rfl
@[simp] theorem complete_evtDraws (s : State) : (complete s).evtDraws = s.evtDraws := rfl

/-! R187: the host takes events. -/

@[simp] theorem hostTakeEvents_coef (k : Nat) (s : State) : (hostTakeEvents k s).coef = s.coef := rfl
@[simp] theorem hostTakeEvents_coefLen (k : Nat) (s : State) : (hostTakeEvents k s).coefLen = s.coefLen := rfl
@[simp] theorem hostTakeEvents_hist (k : Nat) (s : State) : (hostTakeEvents k s).hist = s.hist := rfl
@[simp] theorem hostTakeEvents_acc (k : Nat) (s : State) : (hostTakeEvents k s).acc = s.acc := rfl
@[simp] theorem hostTakeEvents_diagCount (k : Nat) (s : State) : (hostTakeEvents k s).diagCount = s.diagCount := rfl
@[simp] theorem hostTakeEvents_lastErr (k : Nat) (s : State) : (hostTakeEvents k s).lastErr = s.lastErr := rfl
@[simp] theorem hostTakeEvents_sticky (k : Nat) (s : State) : (hostTakeEvents k s).sticky = s.sticky := rfl
@[simp] theorem hostTakeEvents_cmdIn (k : Nat) (s : State) : (hostTakeEvents k s).cmdIn = s.cmdIn := rfl
@[simp] theorem hostTakeEvents_dataIn (k : Nat) (s : State) : (hostTakeEvents k s).dataIn = s.dataIn := rfl
@[simp] theorem hostTakeEvents_dataOut (k : Nat) (s : State) : (hostTakeEvents k s).dataOut = s.dataOut := rfl
@[simp] theorem hostTakeEvents_outRoom (k : Nat) (s : State) : (hostTakeEvents k s).outRoom = s.outRoom := rfl
@[simp] theorem hostTakeEvents_events (k : Nat) (s : State) : (hostTakeEvents k s).events = s.events := rfl
@[simp] theorem hostTakeEvents_evtTaken (k : Nat) (s : State) : (hostTakeEvents k s).evtTaken = s.evtTaken + recordsTaken k s.evtHeld := rfl
@[simp] theorem hostTakeEvents_evtDraws (k : Nat) (s : State) : (hostTakeEvents k s).evtDraws = s.evtDraws := rfl

/-! R186: an event is offered. -/

@[simp] theorem offerEvent_coef (k : Nat) (f : Bool) (kd : EventKind) (p : BitVec 64) (s : State) :
    (offerEvent k f kd p s).coef = s.coef := rfl
@[simp] theorem offerEvent_coefLen (k : Nat) (f : Bool) (kd : EventKind) (p : BitVec 64) (s : State) :
    (offerEvent k f kd p s).coefLen = s.coefLen := rfl
@[simp] theorem offerEvent_hist (k : Nat) (f : Bool) (kd : EventKind) (p : BitVec 64) (s : State) :
    (offerEvent k f kd p s).hist = s.hist := rfl
@[simp] theorem offerEvent_acc (k : Nat) (f : Bool) (kd : EventKind) (p : BitVec 64) (s : State) :
    (offerEvent k f kd p s).acc = s.acc := rfl
@[simp] theorem offerEvent_diagCount (k : Nat) (f : Bool) (kd : EventKind) (p : BitVec 64) (s : State) :
    (offerEvent k f kd p s).diagCount = s.diagCount := rfl
@[simp] theorem offerEvent_lastErr (k : Nat) (f : Bool) (kd : EventKind) (p : BitVec 64) (s : State) :
    (offerEvent k f kd p s).lastErr = s.lastErr := rfl
@[simp] theorem offerEvent_cmdIn (k : Nat) (f : Bool) (kd : EventKind) (p : BitVec 64) (s : State) :
    (offerEvent k f kd p s).cmdIn = s.cmdIn := rfl
@[simp] theorem offerEvent_dataIn (k : Nat) (f : Bool) (kd : EventKind) (p : BitVec 64) (s : State) :
    (offerEvent k f kd p s).dataIn = s.dataIn := rfl
@[simp] theorem offerEvent_dataOut (k : Nat) (f : Bool) (kd : EventKind) (p : BitVec 64) (s : State) :
    (offerEvent k f kd p s).dataOut = s.dataOut := rfl
@[simp] theorem offerEvent_outRoom (k : Nat) (f : Bool) (kd : EventKind) (p : BitVec 64) (s : State) :
    (offerEvent k f kd p s).outRoom = s.outRoom := rfl
@[simp] theorem offerEvent_evtTaken (k : Nat) (f : Bool) (kd : EventKind) (p : BitVec 64) (s : State) :
    (offerEvent k f kd p s).evtTaken = s.evtTaken + recordsTaken k s.evtHeld := rfl
@[simp] theorem offerEvent_evtDraws (k : Nat) (f : Bool) (kd : EventKind) (p : BitVec 64) (s : State) :
    (offerEvent k f kd p s).evtDraws = s.evtDraws + 1 := rfl
@[simp] theorem offerEvent_events (k : Nat) (f : Bool) (kd : EventKind) (p : BitVec 64) (s : State) :
    (offerEvent k f kd p s).events = if s.losesEvent k f then s.events else s.events ++ [⟨kd, p⟩] := rfl
@[simp] theorem offerEvent_sticky (k : Nat) (f : Bool) (kd : EventKind) (p : BitVec 64) (s : State) :
    (offerEvent k f kd p s).sticky = if s.losesEvent k f then setStickyBit s.sticky 5 else s.sticky := rfl

@[simp] theorem postEvent_coef (kd : EventKind) (p : BitVec 64) (s : State) : (postEvent kd p s).coef = s.coef := rfl
@[simp] theorem postEvent_coefLen (kd : EventKind) (p : BitVec 64) (s : State) :
    (postEvent kd p s).coefLen = s.coefLen := rfl
@[simp] theorem postEvent_hist (kd : EventKind) (p : BitVec 64) (s : State) : (postEvent kd p s).hist = s.hist := rfl
@[simp] theorem postEvent_acc (kd : EventKind) (p : BitVec 64) (s : State) : (postEvent kd p s).acc = s.acc := rfl
@[simp] theorem postEvent_diagCount (kd : EventKind) (p : BitVec 64) (s : State) :
    (postEvent kd p s).diagCount = s.diagCount := rfl
@[simp] theorem postEvent_lastErr (kd : EventKind) (p : BitVec 64) (s : State) :
    (postEvent kd p s).lastErr = s.lastErr := rfl
@[simp] theorem postEvent_cmdIn (kd : EventKind) (p : BitVec 64) (s : State) :
    (postEvent kd p s).cmdIn = s.cmdIn := rfl
@[simp] theorem postEvent_dataIn (kd : EventKind) (p : BitVec 64) (s : State) :
    (postEvent kd p s).dataIn = s.dataIn := rfl
@[simp] theorem postEvent_dataOut (kd : EventKind) (p : BitVec 64) (s : State) :
    (postEvent kd p s).dataOut = s.dataOut := rfl
@[simp] theorem postEvent_outRoom (kd : EventKind) (p : BitVec 64) (s : State) :
    (postEvent kd p s).outRoom = s.outRoom := rfl
@[simp] theorem postEvent_evtTaken (kd : EventKind) (p : BitVec 64) (s : State) :
    (postEvent kd p s).evtTaken = s.evtTaken + recordsTaken (Config.hostTakes s.evtDraws) s.evtHeld := rfl
@[simp] theorem postEvent_evtDraws (kd : EventKind) (p : BitVec 64) (s : State) :
    (postEvent kd p s).evtDraws = s.evtDraws + 1 := rfl

/-! R183: a command is rejected. -/

@[simp] theorem raiseCmdError_coef (e : CmdErr) (w : CmdWord) (s : State) : (raiseCmdError e w s).coef = s.coef := by
  simp [raiseCmdError]
@[simp] theorem raiseCmdError_coefLen (e : CmdErr) (w : CmdWord) (s : State) : (raiseCmdError e w s).coefLen = s.coefLen := by
  simp [raiseCmdError]
@[simp] theorem raiseCmdError_hist (e : CmdErr) (w : CmdWord) (s : State) : (raiseCmdError e w s).hist = s.hist := by
  simp [raiseCmdError]
@[simp] theorem raiseCmdError_acc (e : CmdErr) (w : CmdWord) (s : State) : (raiseCmdError e w s).acc = s.acc := by
  simp [raiseCmdError]
@[simp] theorem raiseCmdError_diagCount (e : CmdErr) (w : CmdWord) (s : State) : (raiseCmdError e w s).diagCount = s.diagCount := by
  simp [raiseCmdError]
@[simp] theorem raiseCmdError_lastErr (e : CmdErr) (w : CmdWord) (s : State) : (raiseCmdError e w s).lastErr = BitVec.ofNat 4 e.code := by
  simp [raiseCmdError]
@[simp] theorem raiseCmdError_cmdIn (e : CmdErr) (w : CmdWord) (s : State) : (raiseCmdError e w s).cmdIn = s.cmdIn := by
  simp [raiseCmdError]
@[simp] theorem raiseCmdError_dataIn (e : CmdErr) (w : CmdWord) (s : State) : (raiseCmdError e w s).dataIn = s.dataIn := by
  simp [raiseCmdError]
@[simp] theorem raiseCmdError_dataOut (e : CmdErr) (w : CmdWord) (s : State) : (raiseCmdError e w s).dataOut = s.dataOut := by
  simp [raiseCmdError]
@[simp] theorem raiseCmdError_outRoom (e : CmdErr) (w : CmdWord) (s : State) : (raiseCmdError e w s).outRoom = s.outRoom := by
  simp [raiseCmdError]
@[simp] theorem raiseCmdError_evtDraws (e : CmdErr) (w : CmdWord) (s : State) : (raiseCmdError e w s).evtDraws = s.evtDraws + 1 := by
  simp [raiseCmdError]

/-! R143: the diagnostic. -/

@[simp] theorem diagnose_coef (x : Word) (s : State) : (diagnose x s).coef = s.coef := by
  simp only [diagnose]; split <;> simp
@[simp] theorem diagnose_coefLen (x : Word) (s : State) : (diagnose x s).coefLen = s.coefLen := by
  simp only [diagnose]; split <;> simp
@[simp] theorem diagnose_hist (x : Word) (s : State) : (diagnose x s).hist = s.hist := by
  simp only [diagnose]; split <;> simp
@[simp] theorem diagnose_acc (x : Word) (s : State) : (diagnose x s).acc = s.acc := by
  simp only [diagnose]; split <;> simp
@[simp] theorem diagnose_diagCount (x : Word) (s : State) : (diagnose x s).diagCount = if isSubnormal64 x then s.diagCount + 1 else s.diagCount := by
  simp only [diagnose]; split <;> simp
@[simp] theorem diagnose_lastErr (x : Word) (s : State) : (diagnose x s).lastErr = s.lastErr := by
  simp only [diagnose]; split <;> simp
@[simp] theorem diagnose_cmdIn (x : Word) (s : State) : (diagnose x s).cmdIn = s.cmdIn := by
  simp only [diagnose]; split <;> simp
@[simp] theorem diagnose_dataIn (x : Word) (s : State) : (diagnose x s).dataIn = s.dataIn := by
  simp only [diagnose]; split <;> simp
@[simp] theorem diagnose_dataOut (x : Word) (s : State) : (diagnose x s).dataOut = s.dataOut := by
  simp only [diagnose]; split <;> simp
@[simp] theorem diagnose_outRoom (x : Word) (s : State) : (diagnose x s).outRoom = s.outRoom := by
  simp only [diagnose]; split <;> simp

/-! R215: the host sends a command. -/

@[simp] theorem hostSend_coef (w : CmdWord) (data : List Word) (s : State) : (hostSend w data s).coef = s.coef := rfl
@[simp] theorem hostSend_coefLen (w : CmdWord) (data : List Word) (s : State) : (hostSend w data s).coefLen = s.coefLen := rfl
@[simp] theorem hostSend_hist (w : CmdWord) (data : List Word) (s : State) : (hostSend w data s).hist = s.hist := rfl
@[simp] theorem hostSend_acc (w : CmdWord) (data : List Word) (s : State) : (hostSend w data s).acc = s.acc := rfl
@[simp] theorem hostSend_diagCount (w : CmdWord) (data : List Word) (s : State) : (hostSend w data s).diagCount = s.diagCount := rfl
@[simp] theorem hostSend_lastErr (w : CmdWord) (data : List Word) (s : State) : (hostSend w data s).lastErr = s.lastErr := rfl
@[simp] theorem hostSend_sticky (w : CmdWord) (data : List Word) (s : State) : (hostSend w data s).sticky = s.sticky := rfl
@[simp] theorem hostSend_cmdIn (w : CmdWord) (data : List Word) (s : State) : (hostSend w data s).cmdIn = s.cmdIn ++ [w] := rfl
@[simp] theorem hostSend_dataIn (w : CmdWord) (data : List Word) (s : State) : (hostSend w data s).dataIn = s.dataIn ++ data := rfl
@[simp] theorem hostSend_dataOut (w : CmdWord) (data : List Word) (s : State) : (hostSend w data s).dataOut = s.dataOut := rfl
@[simp] theorem hostSend_outRoom (w : CmdWord) (data : List Word) (s : State) : (hostSend w data s).outRoom = s.outRoom := rfl
@[simp] theorem hostSend_events (w : CmdWord) (data : List Word) (s : State) : (hostSend w data s).events = s.events := rfl
@[simp] theorem hostSend_evtTaken (w : CmdWord) (data : List Word) (s : State) : (hostSend w data s).evtTaken = s.evtTaken := rfl
@[simp] theorem hostSend_evtDraws (w : CmdWord) (data : List Word) (s : State) : (hostSend w data s).evtDraws = s.evtDraws := rfl

/-! R215: a command at the head of the channels. -/

@[simp] theorem placeCommand_coef (w : CmdWord) (data : List Word) (s : State) : (placeCommand w data s).coef = s.coef := rfl
@[simp] theorem placeCommand_coefLen (w : CmdWord) (data : List Word) (s : State) : (placeCommand w data s).coefLen = s.coefLen := rfl
@[simp] theorem placeCommand_hist (w : CmdWord) (data : List Word) (s : State) : (placeCommand w data s).hist = s.hist := rfl
@[simp] theorem placeCommand_acc (w : CmdWord) (data : List Word) (s : State) : (placeCommand w data s).acc = s.acc := rfl
@[simp] theorem placeCommand_diagCount (w : CmdWord) (data : List Word) (s : State) : (placeCommand w data s).diagCount = s.diagCount := rfl
@[simp] theorem placeCommand_lastErr (w : CmdWord) (data : List Word) (s : State) : (placeCommand w data s).lastErr = s.lastErr := rfl
@[simp] theorem placeCommand_sticky (w : CmdWord) (data : List Word) (s : State) : (placeCommand w data s).sticky = s.sticky := rfl
@[simp] theorem placeCommand_cmdIn (w : CmdWord) (data : List Word) (s : State) : (placeCommand w data s).cmdIn = w :: s.cmdIn := rfl
@[simp] theorem placeCommand_dataIn (w : CmdWord) (data : List Word) (s : State) : (placeCommand w data s).dataIn = data ++ s.dataIn := rfl
@[simp] theorem placeCommand_dataOut (w : CmdWord) (data : List Word) (s : State) : (placeCommand w data s).dataOut = s.dataOut := rfl
@[simp] theorem placeCommand_outRoom (w : CmdWord) (data : List Word) (s : State) : (placeCommand w data s).outRoom = s.outRoom := rfl
@[simp] theorem placeCommand_events (w : CmdWord) (data : List Word) (s : State) : (placeCommand w data s).events = s.events := rfl
@[simp] theorem placeCommand_evtTaken (w : CmdWord) (data : List Word) (s : State) : (placeCommand w data s).evtTaken = s.evtTaken := rfl
@[simp] theorem placeCommand_evtDraws (w : CmdWord) (data : List Word) (s : State) : (placeCommand w data s).evtDraws = s.evtDraws := rfl

end Sys2Proof.Machine
end

