-- ==== Sys2Proof/Laws/Ops.lean ====
section
/-! SUPPORT. What each shared operation can do, said once: provers cite these and unfold no operation. -/

namespace Sys2Proof.Machine

/-! Setting a bit of `STICKY`. -/

/-- R31: the bit is set and no other bit changes. -/
theorem setStickyBit_getLsbD (st : BitVec 8) (i b : Nat) (hi : i < 8) :
    (setStickyBit st i).getLsbD b = (st.getLsbD b || decide (b = i)) := by
  simp only [setStickyBit, BitVec.getLsbD_or, BitVec.getLsbD_shiftLeft, BitVec.getLsbD_one]
  congr 1
  rw [Bool.eq_iff_iff]
  simp only [Bool.and_eq_true, Bool.not_eq_true', decide_eq_true_eq, decide_eq_false_iff_not]
  omega

/-- R31: a set bit is never cleared. -/
theorem setStickyBit_keeps (st : BitVec 8) (i b : Nat) (hb : st.getLsbD b = true) :
    (setStickyBit st i).getLsbD b = true := by
  simp [setStickyBit, hb]

/-- R31 bits 7:6: setting one of bits 0 to 5 leaves them as they are. -/
theorem setStickyBit_reserved (st : BitVec 8) (i : Nat) (hi : i < 6) :
    (setStickyBit st i).extractLsb' 6 2 = st.extractLsb' 6 2 := by
  ext b hb
  simp only [BitVec.getElem_extractLsb', setStickyBit_getLsbD st i (6 + b) (by omega)]
  rw [decide_eq_false (by omega), Bool.or_false]

theorem code_range (e : CmdErr) : 1 ≤ e.code ∧ e.code ≤ 5 := by cases e <;> decide

/-- R181: a code fits `LAST_ERR`. -/
theorem code_toNat (e : CmdErr) : (BitVec.ofNat 4 e.code).toNat = e.code := by cases e <;> rfl

/-! The event channel. -/

theorem recordsTaken_eq_min (k held : Nat) : recordsTaken k held = min k held := by
  cases held <;> simp [recordsTaken]

theorem recordsTaken_le (k held : Nat) : recordsTaken k held ≤ held := by
  rw [recordsTaken_eq_min]; exact Nat.min_le_right k held

/-- R186: the two things an offer can do, and when it does which. -/
theorem offerEvent_cases (k : Nat) (f : Bool) (kd : EventKind) (p : BitVec 64) (s : State) :
    (s.evtHeld - recordsTaken k s.evtHeld < Config.evtFifoDepth ∧ f = false ∧
      (offerEvent k f kd p s).events = s.events ++ [⟨kd, p⟩] ∧ (offerEvent k f kd p s).sticky = s.sticky) ∨
    ((Config.evtFifoDepth ≤ s.evtHeld - recordsTaken k s.evtHeld ∨ f = true) ∧
      (offerEvent k f kd p s).events = s.events ∧ (offerEvent k f kd p s).sticky = setStickyBit s.sticky 5) := by
  cases h : s.losesEvent k f with
  | false =>
    left
    have h' := h
    simp only [State.losesEvent, Bool.or_eq_false_iff, decide_eq_false_iff_not] at h'
    exact ⟨Nat.lt_of_not_le h'.2, h'.1, by simp [h], by simp [h]⟩
  | true =>
    right
    have h' := h
    simp only [State.losesEvent, Bool.or_eq_true, decide_eq_true_eq] at h'
    exact ⟨h'.symm, by simp [h], by simp [h]⟩

/-- R186: a full channel drops the record whatever the host's timing is. -/
theorem offerEvent_full (k : Nat) (kd : EventKind) (p : BitVec 64) (s : State) :
    (offerEvent k true kd p s).events = s.events ∧ (offerEvent k true kd p s).sticky = setStickyBit s.sticky 5 :=
  ⟨rfl, rfl⟩

/-- R186: what the block does with an event, as the free values decide. -/
theorem postEvent_cases (kd : EventKind) (p : BitVec 64) (s : State) :
    (s.evtHeld - recordsTaken (Config.hostTakes s.evtDraws) s.evtHeld < Config.evtFifoDepth ∧
      Config.evtFull s.evtDraws = false ∧
      (postEvent kd p s).events = s.events ++ [⟨kd, p⟩] ∧ (postEvent kd p s).sticky = s.sticky) ∨
    ((Config.evtFifoDepth ≤ s.evtHeld - recordsTaken (Config.hostTakes s.evtDraws) s.evtHeld ∨
        Config.evtFull s.evtDraws = true) ∧
      (postEvent kd p s).events = s.events ∧ (postEvent kd p s).sticky = setStickyBit s.sticky 5) :=
  offerEvent_cases _ _ kd p s

/-- R186: with the premise on the host, an event offered to an empty channel is delivered. -/
theorem postEvent_delivers (kd : EventKind) (p : BitVec 64) (s : State) (h : s.evtHeld = 0)
    (host : Config.evtFull s.evtDraws = false) :
    (postEvent kd p s).events = s.events ++ [⟨kd, p⟩] ∧ (postEvent kd p s).sticky = s.sticky := by
  rcases postEvent_cases kd p s with ⟨-, -, he, hs⟩ | ⟨hf | hf, -, -⟩
  · exact ⟨he, hs⟩
  · rw [h] at hf; exact absurd hf (Nat.not_succ_le_zero _)
  · rw [host] at hf; cases hf

/-- R186 in the terms of the claims. -/
theorem postEvent_posts (kd : EventKind) (p : BitVec 64) (s : State) : PostsOne ⟨kd, p⟩ s (postEvent kd p s) := by
  refine ⟨rfl, _, recordsTaken_le (Config.hostTakes s.evtDraws) s.evtHeld, rfl, ?_⟩
  rcases postEvent_cases kd p s with ⟨h, hf, he, hs⟩ | ⟨h, he, hs⟩
  · exact .inl ⟨h, hf, he, by rw [hs]⟩
  · exact .inr ⟨h, he, by rw [hs, setStickyBit_getLsbD _ _ _ (by omega)]; simp⟩

/-- R186: only bit 5 of `STICKY` can change. -/
theorem postEvent_sticky_ne (kd : EventKind) (p : BitVec 64) (s : State) (b : Nat) (hb : b ≠ 5) :
    (postEvent kd p s).sticky.getLsbD b = s.sticky.getLsbD b := by
  rcases postEvent_cases kd p s with ⟨-, -, -, hs⟩ | ⟨-, -, hs⟩
  · rw [hs]
  · rw [hs, setStickyBit_getLsbD _ _ _ (by omega)]; simp [hb]

/-- R183: everything the rejection of a command does, the taking of its data words apart. -/
theorem raiseCmdError_rejects (e : CmdErr) (w : CmdWord) (s : State) : EndsRejected e w 0 s (raiseCmdError e w s) := by
  obtain ⟨h1, h5⟩ := code_range e
  have hp := postEvent_posts .error (errorPayload e w)
    { s with lastErr := BitVec.ofNat 4 e.code, sticky := setStickyBit s.sticky (e.code - 1) }
  have hst : ∀ b, b ≠ 5 → (raiseCmdError e w s).sticky.getLsbD b = (s.sticky.getLsbD b || decide (b = e.code - 1)) := by
    intro b hb
    rw [raiseCmdError, postEvent_sticky_ne _ _ _ b hb, setStickyBit_getLsbD _ _ _ (by omega)]
  refine ⟨by rw [raiseCmdError_lastErr, code_toNat], ?_, ?_, ?_, ⟨by simp, by simp⟩, ⟨by simp, by simp, by simp⟩, ⟨by simp, ?_⟩, ⟨by simp, by simp⟩⟩
  · rw [hst _ (by omega)]; simp
  · intro b hb h
    rw [hst b h]; simp [hb]
  · obtain ⟨hd, taken, hle, ht, hc⟩ := hp
    refine ⟨hd, taken, hle, ht, ?_⟩
    rcases hc with ⟨a, f, b, c⟩ | ⟨a, b, c⟩
    · refine .inl ⟨a, f, b, c.trans ?_⟩
      rw [setStickyBit_getLsbD _ _ _ (by omega), decide_eq_false (by omega), Bool.or_false]
    · exact .inr ⟨a, b, c⟩
  · rw [raiseCmdError_outRoom]; cases s.outRoom <;> rfl

/-! Operands and results. -/

theorem takeData_next {n : Nat} {s t : State} {go : List Word → State → Host.Outcome State Fault Refusal}
    (h : takeData n s go = .next t) :
    n ≤ s.dataIn.length ∧ go (s.dataIn.take n) { s with dataIn := s.dataIn.drop n } = .next t := by
  unfold takeData at h
  split at h
  · exact ⟨‹_›, h⟩
  · cases h

/-- With enough words on the data-in channel the command goes on with them. -/
theorem takeData_enough {n : Nat} {s : State} (go : List Word → State → Host.Outcome State Fault Refusal)
    (h : n ≤ s.dataIn.length) : takeData n s go = go (s.dataIn.take n) { s with dataIn := s.dataIn.drop n } := if_pos h

/-- R223: with too few words the block waits. -/
theorem takeData_waits {n : Nat} {s : State} (go : List Word → State → Host.Outcome State Fault Refusal)
    (h : s.dataIn.length < n) : takeData n s go = .fault .waitDataIn := if_neg (Nat.not_le.mpr h)

theorem emitAndComplete_next {ys : List Word} {s t : State} (h : emitAndComplete ys s = .next t) :
    s.hasRoom ys.length = true ∧
      t = { s with dataOut := s.dataOut ++ ys, outRoom := s.outRoom.map (· - ys.length), lastErr := 0 } := by
  unfold emitAndComplete at h
  split at h
  · cases h; exact ⟨‹_›, rfl⟩
  · cases h

/-- With room on the data-out channel the words go out and the command completes. -/
theorem emitAndComplete_room {ys : List Word} {s : State} (h : s.hasRoom ys.length = true) :
    emitAndComplete ys s =
      .next { s with dataOut := s.dataOut ++ ys, outRoom := s.outRoom.map (· - ys.length), lastErr := 0 } := if_pos h

/-- R223: without room the block waits. -/
theorem emitAndComplete_waits {ys : List Word} {s : State} (h : s.hasRoom ys.length = false) :
    emitAndComplete ys s = .fault .waitDataOut := if_neg (by simp [h])

/-! The diagnostic and the convolution. -/

/-- R142, R143: a subnormal first sample counts and posts one DENORMAL event; any other changes nothing. -/
theorem diagnose_cases (x : Word) (s : State) :
    (isSubnormal64 x = true ∧ (diagnose x s).diagCount = s.diagCount + 1 ∧
      PostsOne ⟨.denormal, s.diagCount + 1⟩ s (diagnose x s) ∧
      ∀ b, b ≠ 5 → (diagnose x s).sticky.getLsbD b = s.sticky.getLsbD b) ∨
    (isSubnormal64 x = false ∧ diagnose x s = s) := by
  by_cases h : isSubnormal64 x = true
  · left
    refine ⟨h, by simp [h], ?_, ?_⟩
    · rw [diagnose, if_pos h]
      exact postEvent_posts .denormal (s.diagCount + 1) { s with diagCount := s.diagCount + 1 }
    · intro b hb
      rw [diagnose, if_pos h, postEvent_sticky_ne _ _ _ b hb]
  · right
    exact ⟨by simpa using h, by rw [diagnose, if_neg h]⟩

@[simp] theorem convolve_length (coef hist : Memory) (L N : Nat) : (convolve coef hist L N).length = N := by
  simp [convolve]

/-- R126, R127: output `n` is the ascending sum over the `L` words that end at index `L-1+n`. -/
theorem convolve_get (coef hist : Memory) (L N n : Nat) (hn : n < N) :
    (convolve coef hist L N)[n]? =
      some (ascendingSum (Memory.read coef) (fun k => Memory.read hist (L - 1 + n - k)) L) := by
  simp [convolve, macOutput, ascendingSum, hn]

/-- R127 in the terms of the claims. -/
theorem macOutput_eq_ascendingSum (coef hist : Memory) (L p : Nat) :
    macOutput coef hist L p = ascendingSum (Memory.read coef) (fun k => Memory.read hist (p - k)) L := rfl

/-- The ascending sum reads its two sequences below `L` only. -/
theorem ascendingSum_congr {c c' x x' : Nat → Word} {L : Nat} (hc : ∀ k < L, c k = c' k) (hx : ∀ k < L, x k = x' k) :
    ascendingSum c x L = ascendingSum c' x' L := by
  unfold ascendingSum
  refine List.foldl_ext _ _ _ fun acc k hk => ?_
  rw [hc k (List.mem_range.mp hk), hx k (List.mem_range.mp hk)]

/-- R125: what `HIST` reads after the append, in the terms of the claims. -/
theorem read_append_eq_afterAppend {s : State} (xs : List Word) (i : Nat) (hs : Inv s)
    (hx : xs.length ≤ Config.maxInputLen) :
    Memory.read (appendBlock s.coefLen.toNat xs s.hist) i = afterAppend s xs i := by
  have h1 := hs.lenMax
  have h2 := hs.lenPos
  simp only [Config.maxCoeffsLen, Config.maxInputLen] at h1 hx
  exact read_appendBlock xs i hs.histWf (by simp only [Config.histCap]; omega)

/-! Accepting a command word. -/

theorem acceptCommand_cons {s : State} {w : CmdWord} {rest : List CmdWord} (h : s.cmdIn = w :: rest) :
    acceptCommand s = some (w, { s with cmdIn := rest }) := by rw [acceptCommand, h]

theorem acceptCommand_nil {s : State} (h : s.cmdIn = []) : acceptCommand s = none := by rw [acceptCommand, h]

/-- Everything a step that goes on can be: a command that decodes and executes, or a rejected command word. -/
theorem step_cases {s t : State} (h : step s = .next t) :
    ∃ w rest, s.cmdIn = w :: rest ∧
      ((∃ i, decode w = .ok i ∧ exec i { s with cmdIn := rest } = .next t) ∨
        (∃ e, decode w = .error e ∧ t = raiseCmdError (decodeErr e) w { s with cmdIn := rest })) := by
  unfold step at h
  cases hc : s.cmdIn with
  | nil => rw [acceptCommand_nil hc] at h; cases h
  | cons w rest =>
    rw [acceptCommand_cons hc] at h
    refine ⟨w, rest, rfl, ?_⟩
    cases hd : decode w with
    | ok i => simp only [hd] at h; exact .inl ⟨i, rfl, h⟩
    | error e =>
      simp only [hd] at h
      exact .inr ⟨e, rfl, by simpa [rejectDecode] using h.symm⟩

end Sys2Proof.Machine
end

