-- ==== Sys2Proof/Laws/Exec.lean ====
section
/-! SUPPORT. One inversion lemma per command: everything it can be when it answers a next state. -/

namespace Sys2Proof.Machine

theorem execNop_next {s t : State} (h : execNop s = .next t) : t = { s with lastErr := 0 } := by
  cases h; rfl

theorem execGetCoefs_next {s t : State} (h : execGetCoefs s = .next t) :
    s.coefLen.toNat ≤ 512 ∧ s.hasRoom s.coefLen.toNat = true ∧
      t = { s with
            dataOut := s.dataOut ++ (List.range s.coefLen.toNat).map (Memory.read s.coef)
            outRoom := s.outRoom.map (· - s.coefLen.toNat)
            lastErr := 0 } := by
  unfold execGetCoefs at h
  split at h
  · cases h
  · have hL : ¬ 512 < s.coefLen.toNat := ‹_›
    have := emitAndComplete_next h
    rw [List.length_map, List.length_range] at this
    exact ⟨by omega, this.1, this.2⟩

theorem execGetHistory_next {s t : State} (h : execGetHistory s = .next t) :
    s.hasRoom Config.histCap = true ∧
      t = { s with
            dataOut := s.dataOut ++ (List.range Config.histCap).map (Memory.read s.hist)
            outRoom := s.outRoom.map (· - Config.histCap)
            lastErr := 0 } := by
  have := emitAndComplete_next h
  rwa [List.length_map, List.length_range] at this

theorem execGetStatus_next {s t : State} (h : execGetStatus s = .next t) :
    s.hasRoom 2 = true ∧
      t = { s with
            dataOut := s.dataOut ++ [statusWord s, s.diagCount]
            outRoom := s.outRoom.map (· - 2)
            lastErr := 0 } := emitAndComplete_next h

theorem execSetScalar_next {s t : State} (h : execSetScalar s = .next t) :
    ∃ v rest, s.dataIn = v :: rest ∧
      t = { s with coef := Memory.write s.coef 0 v, coefLen := 1, dataIn := rest, lastErr := 0 } := by
  obtain ⟨hlen, h⟩ := takeData_next h
  cases hd : s.dataIn with
  | nil => rw [hd] at hlen; cases hlen
  | cons v rest =>
    rw [hd] at h
    cases h
    exact ⟨v, rest, rfl, rfl⟩

theorem execSetBulk_next {n : Nat} {s t : State} (h : execSetBulk n s = .next t) :
    n ≤ s.dataIn.length ∧
      ((512 < n ∧ t = raiseCmdError .coefTooMany (encode (.setBulk n)) { s with dataIn := s.dataIn.drop n }) ∨
        (n = 0 ∧ t = raiseCmdError .coefEmpty (encode (.setBulk n)) { s with dataIn := s.dataIn.drop n }) ∨
        (1 ≤ n ∧ n ≤ 512 ∧
          t = { s with
                coef := Memory.writeFrom s.coef 0 (s.dataIn.take n)
                coefLen := BitVec.ofNat 10 n
                dataIn := s.dataIn.drop n
                lastErr := 0 })) := by
  obtain ⟨hlen, h⟩ := takeData_next h
  refine ⟨hlen, ?_⟩
  split at h
  · cases h; exact .inl ⟨‹_›, rfl⟩
  · have hn : ¬ 512 < n := ‹_›
    split at h
    · cases h; exact .inr (.inl ⟨‹_›, rfl⟩)
    · cases h; exact .inr (.inr ⟨by omega, by omega, rfl⟩)

/-- An accepted block: its diagnostic, its outputs and its history. -/
theorem processAccepted_next {xs : List Word} {s t : State} (h : processAccepted xs s = .next t) :
    1 ≤ s.coefLen.toNat ∧ s.coefLen.toNat ≤ 512 ∧ s.hasRoom xs.length = true ∧
      t = { diagnose (xs.headD posZero) s with
            hist := shiftDown s.coefLen.toNat xs.length (appendBlock s.coefLen.toNat xs s.hist)
            acc := (convolve s.coef (appendBlock s.coefLen.toNat xs s.hist) s.coefLen.toNat xs.length).getLastD s.acc
            dataOut :=
              s.dataOut ++ convolve s.coef (appendBlock s.coefLen.toNat xs s.hist) s.coefLen.toNat xs.length
            outRoom := s.outRoom.map (· - xs.length)
            lastErr := 0 } := by
  simp only [processAccepted] at h
  split at h
  · cases h
  · have h0 : ¬ s.coefLen.toNat = 0 := ‹_›
    split at h
    · cases h
    · have hL : ¬ 512 < s.coefLen.toNat := ‹_›
      obtain ⟨hr, ht⟩ := emitAndComplete_next h
      simp only [State.hasRoom, convolve_length, diagnose_outRoom] at hr
      refine ⟨by omega, by omega, hr, ?_⟩
      simpa using ht

theorem execProcessBlock_next {n : Nat} {s t : State} (h : execProcessBlock n s = .next t) :
    n ≤ s.dataIn.length ∧
      ((512 < n ∧ t = raiseCmdError .blockTooLong (encode (.processBlock n)) { s with dataIn := s.dataIn.drop n }) ∨
        (n = 0 ∧ t = { s with lastErr := 0 }) ∨
        (1 ≤ n ∧ n ≤ 512 ∧
          processAccepted (s.dataIn.take n) { s with dataIn := s.dataIn.drop n } = .next t)) := by
  obtain ⟨hlen, h⟩ := takeData_next h
  refine ⟨hlen, ?_⟩
  split at h
  · cases h; exact .inl ⟨‹_›, rfl⟩
  · have hn : ¬ 512 < n := ‹_›
    split at h
    · have h0 : n = 0 := ‹_›
      subst h0
      cases h; exact .inr (.inl ⟨rfl, rfl⟩)
    · exact .inr (.inr ⟨by omega, by omega, h⟩)

/-- With a legal length and room for its outputs, an accepted block completes. -/
theorem processAccepted_completes {xs : List Word} {s : State} (h1 : 1 ≤ s.coefLen.toNat) (h2 : s.coefLen.toNat ≤ 512)
    (hr : s.hasRoom xs.length = true) : ∃ t, processAccepted xs s = .next t := by
  have e1 : ¬ s.coefLen.toNat = 0 := by omega
  have e2 : ¬ Config.maxCoeffsLen < s.coefLen.toNat := by simp only [Config.maxCoeffsLen]; omega
  simp only [processAccepted, if_neg e1, if_neg e2]
  refine ⟨_, emitAndComplete_room ?_⟩
  simpa [State.hasRoom] using hr

/-! Going forward: what a command whose data words are all there does. -/

/-- R101 with its data word present. -/
theorem execSetScalar_enough {s : State} {v : Word} {rest : List Word} (h : s.dataIn = v :: rest) :
    execSetScalar s =
      .next { s with coef := Memory.write s.coef 0 v, coefLen := 1, dataIn := rest, lastErr := 0 } := by
  rw [execSetScalar, takeData_enough _ (by rw [h]; exact Nat.succ_le_succ (Nat.zero_le _)), h]
  rfl

/-- R102 with `n > 512` and its data words present. -/
theorem execSetBulk_tooMany {n : Nat} {s : State} (h : n ≤ s.dataIn.length) (hn : 512 < n) :
    execSetBulk n s =
      .next (raiseCmdError .coefTooMany (encode (.setBulk n)) { s with dataIn := s.dataIn.drop n }) :=
  (takeData_enough _ h).trans (if_pos hn)

/-- R102 with `n = 0`. -/
theorem execSetBulk_zero (s : State) :
    execSetBulk 0 s = .next (raiseCmdError .coefEmpty (encode (.setBulk 0)) s) :=
  takeData_enough _ (Nat.zero_le _)

/-- R102 with `1 ≤ n ≤ 512` and its data words present. -/
theorem execSetBulk_accepts {n : Nat} {s : State} (h : n ≤ s.dataIn.length) (h1 : 1 ≤ n) (h2 : n ≤ 512) :
    execSetBulk n s =
      .next { s with
                coef := Memory.writeFrom s.coef 0 (s.dataIn.take n)
                coefLen := BitVec.ofNat 10 n
                dataIn := s.dataIn.drop n
                lastErr := 0 } := by
  rw [execSetBulk, takeData_enough _ h, if_neg (show ¬ Config.maxCoeffsLen < n from Nat.not_lt.mpr h2),
    if_neg (show ¬ n = 0 by omega)]
  rfl

/-- R121 with the data words present. -/
theorem execProcessBlock_tooLong {n : Nat} {s : State} (h : n ≤ s.dataIn.length) (hn : 512 < n) :
    execProcessBlock n s =
      .next (raiseCmdError .blockTooLong (encode (.processBlock n)) { s with dataIn := s.dataIn.drop n }) :=
  (takeData_enough _ h).trans (if_pos hn)

/-- R120 with `1 ≤ n ≤ 512` and its data words present. -/
theorem execProcessBlock_accepts {n : Nat} {s : State} (h : n ≤ s.dataIn.length) (h1 : 1 ≤ n) (h2 : n ≤ 512) :
    execProcessBlock n s = processAccepted (s.dataIn.take n) { s with dataIn := s.dataIn.drop n } := by
  rw [execProcessBlock, takeData_enough _ h, if_neg (show ¬ Config.maxInputLen < n from Nat.not_lt.mpr h2),
    if_neg (show ¬ n = 0 by omega)]

end Sys2Proof.Machine
end

