-- ==== Sys2Proof/Laws/Float.lean ====
section
/-! SUPPORT. The fields of a word, and what the binary64 operations deliver (R9, R12, R138 to R141). -/

namespace Sys2Proof.Machine

theorem expField_lt (v : Word) : expField v < 2048 := Nat.mod_lt _ (by decide)

theorem fracField_lt (v : Word) : fracField v < 2 ^ 52 := Nat.mod_lt _ (by decide)

/-- R9: a word is its sign, exponent and fraction. -/
theorem toNat_eq_fields (v : Word) :
    v.toNat = (if signBit v then 2 ^ 63 else 0) + expField v * 2 ^ 52 + fracField v := by
  have h := v.isLt
  by_cases hs : signBit v = true
  · rw [if_pos hs]
    simp only [signBit, decide_eq_true_eq] at hs
    simp only [expField, fracField]
    omega
  · rw [if_neg hs]
    simp only [signBit, decide_eq_true_eq] at hs
    simp only [expField, fracField]
    omega

theorem infBits_lt : infBits < 2 ^ 63 := by decide

theorem nearestBits_le (num den : Nat) : nearestBits num den ≤ infBits := Nat.min_le_right _ _

theorem packWord_toNat (neg : Bool) (bits : Nat) (h : bits < 2 ^ 63) :
    (packWord neg bits).toNat = (if neg then 2 ^ 63 else 0) + bits := by
  cases neg <;> simp [packWord, BitVec.toNat_ofNat] <;> omega

theorem packWord_signBit (neg : Bool) (bits : Nat) (h : bits < 2 ^ 63) : signBit (packWord neg bits) = neg := by
  rw [signBit, packWord_toNat neg bits h]
  cases neg
  · simp; omega
  · simp

theorem packWord_expField (neg : Bool) (bits : Nat) (h : bits < 2 ^ 63) :
    expField (packWord neg bits) = bits / 2 ^ 52 := by
  rw [expField, packWord_toNat neg bits h]
  cases neg <;> simp <;> omega

theorem packWord_fracField (neg : Bool) (bits : Nat) (h : bits < 2 ^ 63) :
    fracField (packWord neg bits) = bits % 2 ^ 52 := by
  rw [fracField, packWord_toNat neg bits h]
  cases neg
  · simp
  · simp; omega

/-- A word packed from at most the bits of an infinity is no NaN. -/
theorem packWord_not_nan (neg : Bool) (bits : Nat) (h : bits ≤ infBits) : isNaN64 (packWord neg bits) = false := by
  have hlt := Nat.lt_of_le_of_lt h infBits_lt
  rw [isNaN64, packWord_expField neg bits hlt, packWord_fracField neg bits hlt]
  simp only [infBits] at h
  simp only [Bool.and_eq_false_iff, decide_eq_false_iff_not]
  omega

/-- An infinity is no NaN. -/
theorem not_nan_of_inf {v : Word} (h : isInf64 v = true) : isNaN64 v = false := by
  simp only [isInf64, Bool.and_eq_true, decide_eq_true_eq] at h
  simp [isNaN64, h.2]

/-- R139: a product is the canonical NaN or no NaN. -/
theorem fmul64_nan (a b : Word) : fmul64 a b = canonicalNaN ∨ isNaN64 (fmul64 a b) = false := by
  unfold fmul64
  split
  · exact .inl rfl
  · split
    · split
      · exact .inl rfl
      · exact .inr (packWord_not_nan _ _ le_rfl)
    · exact .inr (packWord_not_nan _ _ (nearestBits_le _ _))

/-- R139: a sum is the canonical NaN or no NaN. -/
theorem fadd64_nan (a b : Word) : fadd64 a b = canonicalNaN ∨ isNaN64 (fadd64 a b) = false := by
  unfold fadd64
  split
  · exact .inl rfl
  · split
    · split
      · exact .inl rfl
      · exact .inr (not_nan_of_inf ‹_›)
    · split
      · exact .inr (not_nan_of_inf ‹_›)
      · split
        · exact .inr (packWord_not_nan _ _ (Nat.zero_le _))
        · exact .inr (packWord_not_nan _ _ (nearestBits_le _ _))

/-- The magnitude of a finite word, as the bits below its sign give it. -/
theorem magUnits_packWord (neg : Bool) (bits : Nat) (h : bits < 2 ^ 63) :
    magUnits (packWord neg bits) =
      if bits < 2 ^ 52 then bits else (2 ^ 52 + bits % 2 ^ 52) * 2 ^ (bits / 2 ^ 52 - 1) := by
  rw [magUnits, packWord_expField neg bits h, packWord_fracField neg bits h]
  by_cases hb : bits < 2 ^ 52
  · rw [if_pos hb, if_pos (Nat.div_eq_of_lt hb), Nat.mod_eq_of_lt hb]
  · rw [if_neg hb, if_neg]
    intro h0
    exact hb (by omega)

/-- A word of magnitude 0 is a zero. -/
theorem magUnits_eq_zero {v : Word} : magUnits v = 0 ↔ isZero64 v = true := by
  simp only [magUnits, isZero64, Bool.and_eq_true, decide_eq_true_eq]
  by_cases h : expField v = 0
  · simp [h]
  · simp [h]

end Sys2Proof.Machine
end

