-- ==== Sys2Proof/Laws/PerInstr.lean ====
section
/-! SUPPORT. The fields of every command's word (R70, R72 to R75), one lemma per command. -/

namespace Sys2Proof.Laws

/-- R70: the three fields of a command word put together. -/
theorem fields_of_word (o : BitVec 8) (n : Nat) (hn : n < 65536) :
    opcField (o ++ (0 : BitVec 8) ++ BitVec.ofNat 16 n : CmdWord) = o ∧
      rsvField (o ++ (0 : BitVec 8) ++ BitVec.ofNat 16 n : CmdWord) = 0 ∧
      countField (o ++ (0 : BitVec 8) ++ BitVec.ofNat 16 n : CmdWord) = n := by
  have hw : (o ++ (0 : BitVec 8) ++ BitVec.ofNat 16 n : BitVec (8 + 8 + 16)).toNat = o.toNat * 2 ^ 24 + n := by
    rw [BitVec.toNat_append, BitVec.toNat_append, BitVec.toNat_ofNat, Nat.mod_eq_of_lt hn]
    rw [← Nat.shiftLeft_add_eq_or_of_lt hn, ← Nat.shiftLeft_add_eq_or_of_lt (by simp)]
    simp only [Nat.shiftLeft_eq, BitVec.toNat_zero, BitVec.ofNat_eq_ofNat]
    omega
  have ho := o.isLt
  refine ⟨?_, ?_, ?_⟩
  · apply BitVec.eq_of_toNat_eq
    rw [opcField, BitVec.extractLsb'_toNat]
    erw [hw]
    rw [Nat.shiftRight_eq_div_pow]
    omega
  · apply BitVec.eq_of_toNat_eq
    rw [rsvField, BitVec.extractLsb'_toNat]
    erw [hw]
    rw [Nat.shiftRight_eq_div_pow]
    simp only [BitVec.toNat_zero, BitVec.ofNat_eq_ofNat]
    omega
  · rw [countField, BitVec.extractLsb'_toNat]
    erw [hw]
    rw [Nat.shiftRight_eq_div_pow]
    omega

/-- R70, R72, R74, R75: a command's word has its opcode, a zero `RSV` and its count. -/
def EncodedFields.Statement (i : Instr) : Prop :=
  i.wellFormed = true →
    opcField (encode i) = i.opcode ∧ rsvField (encode i) = 0 ∧ countField (encode i) = i.countValue

theorem EncodedFields.nop : EncodedFields.Statement .nop := fun _ => fields_of_word _ _ (by decide)

theorem EncodedFields.setScalar : EncodedFields.Statement .setScalar := fun _ => fields_of_word _ _ (by decide)

theorem EncodedFields.setBulk (count : Nat) : EncodedFields.Statement (.setBulk count) := fun h =>
  fields_of_word _ _ (of_decide_eq_true h)

theorem EncodedFields.processBlock (count : Nat) : EncodedFields.Statement (.processBlock count) := fun h =>
  fields_of_word _ _ (of_decide_eq_true h)

theorem EncodedFields.getCoefs : EncodedFields.Statement .getCoefs := fun _ => fields_of_word _ _ (by decide)

theorem EncodedFields.getHistory : EncodedFields.Statement .getHistory := fun _ => fields_of_word _ _ (by decide)

theorem EncodedFields.getStatus : EncodedFields.Statement .getStatus := fun _ => fields_of_word _ _ (by decide)

end Sys2Proof.Laws
end

