-- ==== Sys2Proof/Tests/Slice0.lean ====
section
/-! SUPPORT. Tests and witnesses.  Every expected value is copied from spec/ (the vector is named), none from the
model. -/

namespace Sys2Proof.Tests

open Sys2Proof Sys2Proof.Machine

/-! Helpers. -/

/-- A field of the next state, if there is one. -/
def look {α : Type} (f : State → α) : Host.Outcome State Fault Refusal → Option α
  | .next t => some (f t)
  | .fault _ => none
  | .refused _ => none

/-- A state with the filter `cs`, the history `hs` from index 0, and the data-in words `ds`. -/
def small (cs hs ds : List Word) : State :=
  { State.reset with
    coef := Memory.ofWords 0 cs
    coefLen := BitVec.ofNat 10 cs.length
    hist := Memory.ofWords 0 hs
    dataIn := ds }

def one : Word := 0x3FF0000000000000#64
def two : Word := 0x4000000000000000#64
def three : Word := 0x4008000000000000#64

/-- The filter `1.0, 2.0, 3.0` of vector PB-3 with the given data-in words. -/
def fir3 (ds : List Word) : State := small [one, two, three] [] ds

/-! WellFormed: the smoke test of each check. -/

theorem test_setBulk_count_too_wide : (Instr.setBulk 65536).wellFormed = false := by decide
theorem test_processBlock_count_too_wide : (Instr.processBlock 65536).wellFormed = false := by decide
theorem test_widest_counts :
    (Instr.setBulk 65535).wellFormed = true ∧ (Instr.processBlock 65535).wellFormed = true := by decide

/-! Decode: words written out bit by bit from the encoding of R70 and R72. -/

theorem test_decode_control :
    decode 0b00000000000000000000000000000000#32 = .ok .nop ∧
      decode 0b00010000000000000000000000000000#32 = .ok .getCoefs ∧
      decode 0b00010001000000000000000000000000#32 = .ok .getHistory ∧
      decode 0b00010010000000000000000000000000#32 = .ok .getStatus := by decide

theorem test_decode_coefficient_store :
    decode 0b00000001000000000000000000000000#32 = .ok .setScalar ∧
      decode 0b00000010000000000000000000000011#32 = .ok (.setBulk 3) ∧
      decode 0b00000010000000001000000000000001#32 = .ok (.setBulk 32769) := by decide

theorem test_decode_process_block :
    decode 0b00000011000000000000001000000001#32 = .ok (.processBlock 513) ∧
      decode 0b00000011000000001111111111111111#32 = .ok (.processBlock 65535) := by decide

/-- DEC-13 to DEC-20. -/
theorem test_decode_rejections :
    decode 0x04000000#32 = .error .illegalOpcode ∧ decode 0xFF000003#32 = .error .illegalOpcode ∧
      decode 0x13000000#32 = .error .illegalOpcode ∧ decode 0x03010004#32 = .error .rsvNonzero ∧
      decode 0x02FF0001#32 = .error .rsvNonzero ∧ decode 0x01000001#32 = .error .countNonzero ∧
      decode 0x00000001#32 = .error .countNonzero ∧ decode 0x12000005#32 = .error .countNonzero := by decide

/-- The table's numbering: `match` of the row GET_STATUS. -/
theorem test_decodeTableWord : decodeTableWord 32 0x12000000 = some .getStatus ∧
    decodeTableWord 32 0x02000000 = some (.setBulk 0) ∧ decodeTableWord 32 0x13000000 = none := by decide

/-! Commands. -/

/-- P3: NOP clears `LAST_ERR` and not `STICKY`. -/
theorem test_nop :
    look (fun t => (t.lastErr, t.sticky)) (exec .nop { State.reset with lastErr := 4, sticky := 0x0D }) =
      some (0, 0x0D) := by decide

/-- CS-1: SET_SCALAR 0.5 from reset; `COEF[1]` keeps its default. -/
theorem test_setScalar :
    look (fun t => (Memory.read t.coef 0, Memory.read t.coef 1, t.coefLen, t.dataIn))
        (exec .setScalar { State.reset with dataIn := [0x3FE0000000000000#64, one] }) =
      some (0x3FE0000000000000#64, 0x3FA087FCB923A29C#64, 1, [one]) := by decide

/-- CS-3: SET_BULK 3. -/
theorem test_setBulk :
    look (fun t => (t.coefLen, (List.range 4).map (Memory.read t.coef), t.lastErr))
        (exec (.setBulk 3) { State.reset with dataIn := [one, two, three] }) =
      some (3, [one, two, three, 0x3F81F18C9FB6134D#64], 0) := by decide

/-- ER-2 and DEC-6: SET_BULK 0 from reset is rejected with code 2; with the premise on the host its event is
delivered. -/
theorem test_setBulk_empty (host : Config.evtFull 0 = false) :
    ∃ t, exec (.setBulk 0) State.reset = .next t ∧ t.lastErr = 2 ∧ t.coefLen = 63 ∧
      t.events = [⟨.error, 0x0002000102000000#64⟩] ∧ t.sticky = 0x02 :=
  ⟨_, rfl, rfl, rfl, postEvent_delivers .error 0x0002000102000000#64 _ rfl host⟩

/-- R186: the first event after reset may be lost too: dropped, with `S_EVT_LOST` set. -/
theorem test_first_event_may_be_lost :
    (offerEvent 0 true .denormal 1 State.reset).events = [] ∧
      (offerEvent 0 true .denormal 1 State.reset).sticky = 0x20 := by decide

/-- PB-3 step 2: outputs 1.0 and 2.0, then `HIST[0..3] = 1.0, 0.0, 1.0, 0.0`. -/
theorem test_processBlock :
    look (fun t => (t.dataOut, (List.range 4).map (Memory.read t.hist))) (exec (.processBlock 2) (fir3 [one, 0])) =
      some ([one, two], [one, 0, one, 0]) := by decide +kernel

/-- PB-10 step 4: after a length decrease the oldest retained words are used: `4 + 10·2 = 24`, then
`HIST[0..4] = 4, 4, 1, 2, 3`. -/
theorem test_processBlock_after_length_decrease :
    look (fun t => (t.dataOut, (List.range 5).map (Memory.read t.hist)))
        (exec (.processBlock 1)
          (small [one, 0x4024000000000000#64] [two, three, one, two, three] [0x4010000000000000#64])) =
      some ([0x4038000000000000#64],
        [0x4010000000000000#64, 0x4010000000000000#64, one, two, three]) := by decide +kernel

/-- CS-3: GET_COEFS. -/
theorem test_getCoefs : look (·.dataOut) (exec .getCoefs (fir3 [])) = some [one, two, three] := by decide

/-- RB-6: GET_HISTORY shows the stale words. -/
theorem test_getHistory :
    look (fun t => (t.dataOut.length, t.dataOut.take 5)) (exec .getHistory (small [one, two, three] [one, 0, one] [])) =
      some (1023, [one, 0, one, 0, 0]) := by decide +kernel

/-- RB-1. -/
theorem test_getStatus :
    look (·.dataOut) (exec .getStatus State.reset) = some [0x00000000003F0000#64, 0#64] := by decide

/-- ER-6: the status word with `STICKY = 0x0D` and `LAST_ERR = 4`, cleared afterwards. -/
theorem test_getStatus_reports_previous_error :
    look (fun t => (t.dataOut, t.lastErr)) (exec .getStatus { State.reset with sticky := 0x0D, lastErr := 4 }) =
      some ([0x00000000003F0D04#64, 0#64], 0) := by decide

/-! Steps. -/

/-- ER-4: an illegal opcode from reset, its event delivered with the premise on the host; R216: a data word sent with
it stays. -/
theorem test_step_illegal_opcode (host : Config.evtFull 0 = false) :
    ∃ t, step { State.reset with cmdIn := [0x04000000#32], dataIn := [one] } = .next t ∧ t.lastErr = 4 ∧
      t.dataIn = [one] ∧ t.events = [⟨.error, 0x0004000004000000#64⟩] ∧ t.sticky = 0x08 :=
  ⟨_, rfl, rfl, rfl, postEvent_delivers .error 0x0004000004000000#64 _ rfl host⟩

/-- PB-9 step 1: the default filter; the denormal count and both outputs, whether the event is delivered or not. -/
theorem test_step_denormal :
    look (fun t => (t.diagCount, t.dataOut))
        (step { State.reset with cmdIn := [0x03000002#32], dataIn := [0x0000000000000001#64, one] }) =
      some (1, [0#64, 0xBFA6F13E9C1D0199#64]) := by decide +kernel

/-- PB-9 step 1: the denormal event carries the new count; delivered with the premise on the host. -/
theorem test_denormal_event (host : Config.evtFull 0 = false) :
    (diagnose 0x0000000000000001#64 State.reset).events = [⟨.denormal, 1#64⟩] := by
  rw [diagnose, if_pos (by decide)]
  exact (postEvent_delivers .denormal 1#64 _ rfl host).1

/-- The loading convention runs SET_SCALAR as the first command after reset. -/
theorem test_withFetchWord :
    look (fun t => (t.coefLen, t.cmdIn, t.dataIn)) (step (State.reset.withFetchWord 32 0x01000000)) =
      some (1, [], []) := by decide

/-- R83: the line `SET_BULK 2 [0.1, -0.0]`; 0.1 is the word of PB-4. -/
theorem test_assembler :
    asmEncode (.setBulk 2 [.decimal false 1 1, .negZero]) =
      (0x02000002#32, [0x3FB999999999999A#64, 0x8000000000000000#64]) := by decide +kernel

/-! Arithmetic. -/

/-- PB-4: `0.2 + 0.1·2`, and `0.3 + 0.2·2 + 0.1·3`. -/
theorem test_rounding :
    macOutput (Memory.ofWords 0 [0x3FB999999999999A#64, 0x3FC999999999999A#64, 0x3FD3333333333333#64])
        (Memory.ofWords 0 [one, two, three]) 3 2 = 0x3FF0000000000000#64 ∧
      macOutput (Memory.ofWords 0 [0x3FB999999999999A#64, 0x3FC999999999999A#64]) (Memory.ofWords 0 [one, two]) 2 1 =
        0x3FD999999999999A#64 := by decide +kernel

/-- PB-5: the ascending order gives `1e16`, not `1e16 + 2`. -/
theorem test_accumulation_order :
    macOutput (Memory.ofWords 0 [one, one, one]) (Memory.ofWords 0 [one, 0x4341C37937E08000#64, one]) 3 2 =
      0x4341C37937E08000#64 := by decide +kernel

/-- PB-6, PB-7, PB-8. -/
theorem test_special_values :
    fadd64 posZero (fmul64 0xBFF0000000000000#64 posZero) = posZero ∧
      fmul64 0x7FF0000000000000#64 posZero = 0x7FF8000000000000#64 ∧
      fmul64 one 0x7FF0000000000001#64 = 0x7FF8000000000000#64 ∧
      fmul64 two 0x7FE1CCF385EBC8A0#64 = 0x7FF0000000000000#64 := by decide +kernel

/-- R137: the ascending sum of the default coefficients. -/
theorem test_default_gain :
    macOutput (Memory.ofWords 0 defaultCoefs) (Memory.ofWords 0 (List.replicate 63 one)) 63 62 =
      0x3FC09CBFBEC7508C#64 := by decide +kernel

/-- R37: every default word is the binary64 nearest to its decimal literal. -/
theorem test_default_words_are_nearest :
    (defaultLiterals.map fun z => ofDecimal (decide (z < 0)) z.natAbs 7) = defaultCoefs := by decide +kernel

/-- R37: the table is symmetric. -/
theorem test_default_words_are_symmetric : defaultCoefs.reverse = defaultCoefs ∧ defaultCoefs.length = 63 := by decide

/-! Witnesses: for every statement with hypotheses, a state and operands that meet all of them together. -/

/-- The state of the witnesses: the filter of PB-3, a retained history, and three data words, the first subnormal. -/
def wit : State := small [one, two, three] [two, one, three] [1#64, two, three]

theorem wit_inv : Inv wit where
  coefWf := by decide
  histWf := by decide
  lenPos := by decide
  lenMax := by decide
  lastErrLegal := by decide
  stickyReserved := by decide
  takenLe := by decide
  heldLe := Nat.zero_le _
  eventsLegal := by intro ev h; cases h
  accNotNegZero := by decide
  accCanonical := by decide

/-- `wit` with a command word on the command channel. -/
def witCmd (w : CmdWord) : State := { wit with cmdIn := [w] }

/-- A silent history. -/
def silent (ds : List Word) : State := small [one, two, three] [] ds

theorem silent_inv (ds : List Word) : Inv (silent ds) :=
  have h : Inv (silent []) :=
    ⟨by decide, by decide, by decide, by decide, by decide, by decide, by decide, Nat.zero_le _,
      (fun _ h => (nomatch h)), by decide, by decide⟩
  ⟨h.coefWf, h.histWf, h.lenPos, h.lenMax, h.lastErrLegal, h.stickyReserved, h.takenLe, h.heldLe, h.eventsLegal,
    h.accNotNegZero, h.accCanonical⟩

/-- `n` equal data words are at least `k` if `n` is. -/
theorem silent_words (k n : Nat) (h : k ≤ n) : k ≤ (silent (List.replicate n one)).dataIn.length :=
  h.trans_eq List.length_replicate.symm

theorem witness_EncodeThenDecodeReturnsCommand : (Instr.processBlock 65535).wellFormed = true := by decide

theorem witness_DecodedWordIsTheCommandsWord : decode 0x0200FFFF#32 = .ok (.setBulk 65535) := by decide

theorem witness_DecodeChecksInOrder :
    0x13#8 ∉ [0x00#8, 0x01#8, 0x02#8, 0x03#8, 0x10#8, 0x11#8, 0x12#8] ∧
      (0x12#8 ∈ [0x00#8, 0x01#8, 0x02#8, 0x03#8, 0x10#8, 0x11#8, 0x12#8] ∧ (1#8 : BitVec 8) ≠ 0) ∧
      (0x12#8 ∈ [0x00#8, 0x01#8, 0x10#8, 0x11#8, 0x12#8] ∧ (1#16 : BitVec 16) ≠ 0) ∧
      decode 0x13000000#32 = .error .illegalOpcode := by decide

theorem witness_IllegalOpcodesAreRejected :
    (witCmd 0x04000000#32).cmdIn = [0x04000000#32] ∧
      [0x04000000#32, 0x0F000000#32, 0x13000000#32, 0xFF000003#32].all (fun w =>
        decide ((0x04 ≤ (w.extractLsb' 24 8).toNat ∧ (w.extractLsb' 24 8).toNat ≤ 0x0F) ∨
          0x13 ≤ (w.extractLsb' 24 8).toNat)) = true := by decide

theorem witness_ReservedFieldsAreRejected :
    (witCmd 0x03010004#32).cmdIn = [0x03010004#32] ∧
      ((0x03010004#32).extractLsb' 24 8 ∈ [0x00#8, 0x01#8, 0x02#8, 0x03#8, 0x10#8, 0x11#8, 0x12#8] ∧
        (0x03010004#32).extractLsb' 16 8 ≠ 0) ∧
      (witCmd 0x12000001#32).cmdIn = [0x12000001#32] ∧
      ((0x12000001#32).extractLsb' 24 8 ∈ [0x00#8, 0x01#8, 0x10#8, 0x11#8, 0x12#8] ∧
        (0x12000001#32).extractLsb' 0 16 ≠ 0) := by decide

theorem witness_StepRunsDecodedCommand :
    (witCmd 0x03000002#32).cmdIn = [0x03000002#32] ∧ decode 0x03000002#32 = .ok (.processBlock 2) := by decide

theorem witness_PlacedCommandRunsNext : decode 0x02000003#32 = .ok (.setBulk 3) := by decide

/-- Each case of the statement: an empty command channel, too few data words, no room; and one where none holds. -/
theorem witness_StepWaitsExactlyForChannels :
    Inv wit ∧ wit.cmdIn = [] ∧
      (witCmd 0x03000004#32).dataIn.length < (Instr.processBlock 4).dataInCount ∧
      State.hasRoom { wit with outRoom := some 2 } (dataOutCount (.processBlock 3) wit) = false ∧
      State.hasRoom { wit with outRoom := some 3 } (dataOutCount (.processBlock 3) wit) = true :=
  ⟨wit_inv, by decide⟩

theorem witness_LegalStateIsNeverRefused : Inv wit := wit_inv

theorem witness_CommandsMoveTheirDataCounts :
    (∃ t, exec (.processBlock 3) wit = .next t ∧ t.lastErr = 0) ∧
      ∃ t, exec (.setBulk 0) wit = .next t ∧ t.lastErr ≠ 0 :=
  ⟨⟨_, rfl, rfl⟩, _, rfl, by simp [CmdErr.code]⟩

theorem witness_LastErrIsTheResultCode :
    ∃ t, (witCmd 0x02000000#32).cmdIn = [0x02000000#32] ∧ step (witCmd 0x02000000#32) = .next t :=
  ⟨_, rfl, rfl⟩

theorem witness_RejectionsArePrecise :
    (∃ t, (witCmd 0x02000000#32).cmdIn = [0x02000000#32] ∧ step (witCmd 0x02000000#32) = .next t ∧
      t.lastErr ≠ 0 ∧ t.lastErr.toNat ≤ 3) ∧
    ∃ t, (witCmd 0x04000000#32).cmdIn = [0x04000000#32] ∧ step (witCmd 0x04000000#32) = .next t ∧
      t.lastErr ≠ 0 ∧ 4 ≤ t.lastErr.toNat :=
  ⟨⟨_, rfl, rfl, by simp [CmdErr.code], by simp [CmdErr.code]⟩,
    _, rfl, rfl, by simp [rejectDecode, decodeErr, CmdErr.code], by simp [rejectDecode, decodeErr, CmdErr.code]⟩

theorem witness_StickyBitsAreSetByTheirConditions : ∃ t, step (witCmd 0x04000000#32) = .next t := ⟨_, rfl⟩

/-- Each clause: a readback, an accepted SET_BULK, an accepted PROCESS_BLOCK and a rejected word. -/
theorem witness_EventsPerCommand :
    (∃ t, (witCmd 0x12000000#32).cmdIn = [0x12000000#32] ∧ step (witCmd 0x12000000#32) = .next t ∧
      decode 0x12000000#32 = .ok .getStatus) ∧
    (∃ t, step (witCmd 0x02000003#32) = .next t ∧ decode 0x02000003#32 = .ok (.setBulk 3) ∧ t.lastErr = 0) ∧
    (∃ t, step (witCmd 0x03000003#32) = .next t ∧ decode 0x03000003#32 = .ok (.processBlock 3) ∧ t.lastErr = 0) ∧
    ∃ t, step (witCmd 0x04000000#32) = .next t ∧ t.lastErr ≠ 0 :=
  ⟨⟨_, rfl, rfl, rfl⟩, ⟨_, rfl, rfl, rfl⟩, ⟨_, rfl, rfl, rfl⟩,
    _, rfl, by simp [rejectDecode, decodeErr, CmdErr.code]⟩

theorem witness_EmptyChannelDeliversEvents :
    ∃ t, (witCmd 0x04000000#32).evtHeld = 0 ∧ step (witCmd 0x04000000#32) = .next t ∧
      t.evtDraws = (witCmd 0x04000000#32).evtDraws + 1 :=
  ⟨_, rfl, rfl, rfl⟩

theorem witness_SetScalarReplacesFilter : Inv wit ∧ wit.dataIn = 1#64 :: [two, three] := ⟨wit_inv, rfl⟩

/-- Both ends of the range of `n`. -/
theorem witness_SetBulkReplacesFilter :
    Inv (silent (List.replicate 512 one)) ∧ 1 ≤ 512 ∧ 512 ≤ 512 ∧
      512 ≤ (silent (List.replicate 512 one)).dataIn.length ∧ 1 ≤ (silent (List.replicate 512 one)).dataIn.length :=
  ⟨silent_inv _, by decide, by decide, silent_words 512 512 le_rfl, silent_words 1 512 (by decide)⟩

theorem witness_RejectedSetBulkKeepsFilter :
    (513 < 65536 ∧ 513 ≤ (silent (List.replicate 513 one)).dataIn.length ∧ 512 < 513) ∧
      (0 ≤ (silent []).dataIn.length) ∧ (List.replicate 513 one).length = 513 :=
  ⟨⟨by decide, silent_words 513 513 le_rfl, by decide⟩, by decide, List.length_replicate⟩

theorem witness_SetBulkIsAllOrNothing : Inv wit ∧ ∃ t, exec (.setBulk 3) wit = .next t := ⟨wit_inv, _, rfl⟩

theorem witness_SetBulkOneEqualsSetScalar : wit.dataIn = 1#64 :: [two, three] := rfl

theorem witness_OnlySetCommandsWriteFilter :
    (∃ t, exec (.processBlock 3) wit = .next t) ∧ Instr.processBlock 3 ≠ .setScalar ∧
      ∀ n, Instr.processBlock 3 ≠ .setBulk n :=
  ⟨⟨_, rfl⟩, by decide, fun _ h => by cases h⟩

theorem witness_OnlyProcessBlockWritesHistory :
    (∃ t, exec (.setBulk 3) wit = .next t) ∧ ∀ n, Instr.setBulk 3 ≠ .processBlock n :=
  ⟨⟨_, rfl⟩, fun _ h => by cases h⟩

theorem witness_ProcessBlockOutputs :
    Inv wit ∧ 1 ≤ 3 ∧ 3 ≤ 512 ∧ 3 ≤ wit.dataIn.length ∧ wit.hasRoom 3 = true := ⟨wit_inv, by decide⟩

theorem witness_ProcessBlockHistory : Inv wit ∧ 1 ≤ 3 ∧ 3 ≤ 512 ∧ ∃ t, exec (.processBlock 3) wit = .next t :=
  ⟨wit_inv, by decide, by decide, _, rfl⟩

/-- Each clause: a subnormal first sample (the smallest and the largest, of either sign), and one that is not. -/
theorem witness_DenormalDiagnosticOncePerBlock :
    (∃ t, exec (.processBlock 3) wit = .next t) ∧ wit.dataIn = 1#64 :: [two, three] ∧
      [1#64, 0x000FFFFFFFFFFFFF#64, 0x8000000000000001#64].all (fun x =>
        decide (x.extractLsb' 52 11 = 0 ∧ x.extractLsb' 0 52 ≠ 0)) = true ∧
      (∃ t, exec (.processBlock 1) (silent [0x8000000000000000#64]) = .next t) ∧
      [0#64, 0x8000000000000000#64, 0x0010000000000000#64].all (fun x =>
        decide (¬ (x.extractLsb' 52 11 = 0 ∧ x.extractLsb' 0 52 ≠ 0))) = true :=
  ⟨⟨_, rfl⟩, rfl, by decide, ⟨_, rfl⟩, by decide⟩

theorem witness_OversizedBlockIsRejected :
    (512 < 513 ∧ 513 < 65536 ∧ 513 ≤ (silent (List.replicate 513 one)).dataIn.length) ∧
      Inv (silent (List.replicate 512 one)) ∧ 512 ≤ (silent (List.replicate 512 one)).dataIn.length ∧
      (silent (List.replicate 512 one)).hasRoom 512 = true :=
  ⟨⟨by decide, by decide, silent_words 513 513 le_rfl⟩, silent_inv _, silent_words 512 512 le_rfl, rfl⟩

theorem witness_ZeroLengthBlockIsRefused :
    State.coefLen { wit with coefLen := 0 } = 0 ∧ 1 ≤ 1 ∧ 1 ≤ 512 ∧
      1 ≤ (State.dataIn { wit with coefLen := 0 }).length := by decide

theorem witness_LateOutputsIgnoreHistory :
    Inv wit ∧ Inv (silent [1#64, two, three]) ∧ (silent [1#64, two, three]).coef = wit.coef ∧
      (silent [1#64, two, three]).coefLen = wit.coefLen ∧ (silent [1#64, two, three]).dataIn = wit.dataIn ∧
      (silent [1#64, two, three]).hist ≠ wit.hist ∧
      (∃ t t', exec (.processBlock 3) wit = .next t ∧ exec (.processBlock 3) (silent [1#64, two, three]) = .next t') ∧
      wit.coefLen.toNat - 1 ≤ 2 ∧ 2 < 3 :=
  ⟨wit_inv, silent_inv _, rfl, rfl, rfl, by decide, ⟨_, _, rfl, rfl⟩, by decide, by decide⟩

theorem witness_OutputWordsAreCanonical :
    ∃ t ys, exec (.processBlock 3) wit = .next t ∧ t.dataOut = wit.dataOut ++ ys := ⟨_, _, rfl, rfl⟩

theorem witness_SplittingABlockKeepsOutputs :
    Inv wit ∧ 1 ≤ 1 ∧ 1 ≤ 2 ∧ 1 + 2 ≤ 512 ∧ 1 + 2 ≤ wit.dataIn.length ∧ wit.hasRoom (1 + 2) = true :=
  ⟨wit_inv, by decide⟩

theorem witness_StreamOutputsDoNotDependOnTheSplit :
    Inv (silent [one, two, three]) ∧ (∀ n ∈ [1, 2], 1 ≤ n ∧ n ≤ 512) ∧
      [1, 2].sum ≤ (silent [one, two, three]).dataIn.length ∧ (silent [one, two, three]).hasRoom [1, 2].sum = true ∧
      ∀ i, i < (silent [one, two, three]).coefLen.toNat - 1 → Memory.read (silent [one, two, three]).hist i = 0 :=
  ⟨silent_inv _, by decide, by decide, rfl, fun _ _ => rfl⟩

theorem witness_ImpulseGivesTheCoefficients :
    Inv (silent [one, 0, 0]) ∧ 2 < 512 ∧ (silent [one, 0, 0]).hasRoom (2 + 1) = true ∧
      (∀ i, i < (silent [one, 0, 0]).coefLen.toNat - 1 → Memory.read (silent [one, 0, 0]).hist i = 0) ∧
      (∀ k, k < (silent [one, 0, 0]).coefLen.toNat → isFinite64 (Memory.read (silent [one, 0, 0]).coef k) = true) ∧
      (silent [one, 0, 0]).dataIn = 0x3FF0000000000000#64 :: (List.replicate 2 0#64 ++ []) :=
  ⟨silent_inv _, by decide, rfl, fun _ _ => rfl, by decide +kernel, rfl⟩

theorem witness_SilenceGivesSilence :
    Inv (silent [0, 0]) ∧ 1 ≤ 2 ∧ 2 ≤ 512 ∧ (silent [0, 0]).hasRoom 2 = true ∧
      (∀ i, i < (silent [0, 0]).coefLen.toNat - 1 → Memory.read (silent [0, 0]).hist i = 0) ∧
      (∀ k, k < (silent [0, 0]).coefLen.toNat → isFinite64 (Memory.read (silent [0, 0]).coef k) = true) ∧
      (silent [0, 0]).dataIn = List.replicate 2 0#64 ++ [] :=
  ⟨silent_inv _, by decide, by decide, rfl, fun _ _ => rfl, by decide +kernel, rfl⟩

/-- Two states that differ in the diagnostic counter, the status registers and `ACC` only. -/
theorem witness_StatusNeverInfluencesFiltering :
    let s' : State := { wit with diagCount := 7, lastErr := 3, sticky := 0x25, acc := one }
    s'.coef = wit.coef ∧ s'.coefLen = wit.coefLen ∧ s'.hist = wit.hist ∧ s'.dataIn = wit.dataIn ∧
      s'.outRoom = wit.outRoom ∧ s' ≠ wit ∧ ∃ t, exec (.processBlock 3) wit = .next t :=
  ⟨rfl, rfl, rfl, rfl, rfl, by decide, _, rfl⟩

theorem witness_GetCoefsEmitsTheFilter : Inv wit ∧ wit.hasRoom wit.coefLen.toNat = true := ⟨wit_inv, rfl⟩

theorem witness_GetHistoryEmitsTheBuffer : State.hasRoom { wit with outRoom := some 1023 } 1023 = true := by decide

theorem witness_GetStatusEmitsTheStatus : State.hasRoom { wit with outRoom := some 2 } 2 = true := by decide

theorem witness_ReadbacksChangeOnlyLastErr :
    Instr.getStatus ∈ [Instr.nop, .getCoefs, .getHistory, .getStatus] ∧ wit.outRoom = none ∧
      (∃ t, exec .getStatus wit = .next t) ∧ Instr.processBlock 3 ≠ .getStatus ∧
      ∃ u, exec (.processBlock 3) wit = .next u :=
  ⟨by decide, rfl, ⟨_, rfl⟩, by decide, _, rfl⟩

theorem witness_RoundingIsNearestTiesToEven : 0 < 2 ∧ 2 * (5 % 2) = 2 := by decide

/-- A sum that rounds: `1.0 + 2^-53`, a tie. -/
theorem witness_SumIsTheNearestBinary64 :
    isFinite64 one = true ∧ isFinite64 0x3CA0000000000000#64 = true ∧
      isFinite64 (fadd64 one 0x3CA0000000000000#64) = true ∧ isFinite64 0x3FF0000000000001#64 = true ∧
      valueUnits 0x3FF0000000000001#64 ≠ valueUnits (fadd64 one 0x3CA0000000000000#64) ∧
      (valueUnits (fadd64 one 0x3CA0000000000000#64) - (valueUnits one + valueUnits 0x3CA0000000000000#64)).natAbs =
        (valueUnits 0x3FF0000000000001#64 - (valueUnits one + valueUnits 0x3CA0000000000000#64)).natAbs := by
  decide +kernel

/-- A product that underflows to a tie: `2^-1074 · 0.5`. -/
theorem witness_ProductIsTheNearestBinary64 :
    isFinite64 1#64 = true ∧ isFinite64 0x3FE0000000000000#64 = true ∧
      isFinite64 (fmul64 1#64 0x3FE0000000000000#64) = true ∧
      valueUnits 1#64 ≠ valueUnits (fmul64 1#64 0x3FE0000000000000#64) ∧
      (valueUnits (fmul64 1#64 0x3FE0000000000000#64) * 2 ^ 1074 - valueUnits 1#64 * valueUnits 0x3FE0000000000000#64).natAbs =
        (valueUnits 1#64 * 2 ^ 1074 - valueUnits 1#64 * valueUnits 0x3FE0000000000000#64).natAbs := by
  decide +kernel

/-- Both clauses, at the boundary: the largest finite value plus half a unit in its last place, and plus less. -/
theorem witness_SumOverflowsToInfinity :
    isFinite64 0x7FEFFFFFFFFFFFFF#64 = true ∧ isFinite64 0x7C90000000000000#64 = true ∧
      valueUnits 0x7FEFFFFFFFFFFFFF#64 + valueUnits 0x7C90000000000000#64 = (2 ^ 54 - 1) * 2 ^ 2044 ∧
      valueUnits 0x7FEFFFFFFFFFFFFF#64 + valueUnits 0x7C8FFFFFFFFFFFFF#64 < (2 ^ 54 - 1) * 2 ^ 2044 := by
  decide +kernel

/-- Both clauses: `2.0 · 1e308` and `1.0 · 1e308`. -/
theorem witness_ProductOverflowsToInfinity :
    isFinite64 two = true ∧ isFinite64 0x7FE1CCF385EBC8A0#64 = true ∧
      (2 ^ 54 - 1) * 2 ^ 3118 ≤ valueUnits two * valueUnits 0x7FE1CCF385EBC8A0#64 ∧
      0 ≤ valueUnits one * valueUnits 0x7FE1CCF385EBC8A0#64 ∧
      valueUnits one * valueUnits 0x7FE1CCF385EBC8A0#64 < (2 ^ 54 - 1) * 2 ^ 3118 := by
  decide +kernel

/-- Each clause: a NaN, an infinity with a zero, with a finite number, with the other infinity. -/
theorem witness_SpecialValuesFollowIeee754 :
    isNaN64 0x7FF0000000000001#64 = true ∧ isInf64 0x7FF0000000000000#64 = true ∧ isZero64 negZero = true ∧
      isNaN64 one = false ∧ isZero64 one = false ∧ isFinite64 one = true ∧ isInf64 0xFFF0000000000000#64 = true ∧
      signBit 0x7FF0000000000000#64 ≠ signBit 0xFFF0000000000000#64 ∧
      isNaN64 (fadd64 0x7FF0000000000000#64 0xFFF0000000000000#64) = true := by decide +kernel

theorem witness_SmallSumsAreExact :
    isFinite64 0x000FFFFFFFFFFFFF#64 = true ∧ isFinite64 0x8000000000000001#64 = true ∧
      (valueUnits 0x000FFFFFFFFFFFFF#64 + valueUnits 0x8000000000000001#64).natAbs < 2 ^ 53 := by decide +kernel

theorem witness_ProductWithOneIsExact : isNaN64 0x8000000000000001#64 = false ∧ isNaN64 0x7FF0000000000000#64 = false := by
  decide +kernel

theorem witness_StepKeepsInvariant : Inv (witCmd 0x03000003#32) ∧ ∃ t, step (witCmd 0x03000003#32) = .next t :=
  ⟨⟨wit_inv.coefWf, wit_inv.histWf, wit_inv.lenPos, wit_inv.lenMax, wit_inv.lastErrLegal, wit_inv.stickyReserved,
    wit_inv.takenLe, wit_inv.heldLe, wit_inv.eventsLegal, wit_inv.accNotNegZero, wit_inv.accCanonical⟩, _, rfl⟩

theorem witness_HostActionsKeepInvariant : Inv wit := wit_inv

theorem witness_AssembledLinesAreWholeCommands :
    asmAccepts (.setBulk 2 [.nan, .posInf]) = true ∧ ∀ w vs, AsmLine.setBulk 2 [.nan, .posInf] ≠ .raw w vs :=
  ⟨by decide, fun _ _ h => by cases h⟩

end Sys2Proof.Tests
end

namespace Sys2Proof.Machine

/-! ### Waiting for a channel (R11, R223) -/

/-- R11, R223: a command that takes data words stops when they are not all there, or where it stops after them. -/
theorem takeData_faults_iff {n : Nat} {s : State} {go : List Word → State → Host.Outcome State Fault Refusal} :
    (∃ r, takeData n s go = .fault r) ↔
      s.dataIn.length < n ∨ ∃ r, go (s.dataIn.take n) { s with dataIn := s.dataIn.drop n } = .fault r := by
  by_cases h : n ≤ s.dataIn.length
  · rw [takeData_enough go h, or_iff_right (Nat.not_lt.mpr h)]
  · rw [Nat.not_le] at h
    exact ⟨fun _ => .inl h, fun _ => ⟨_, takeData_waits go h⟩⟩

/-- R11, R223: a command's outputs stop it exactly when they find no room. -/
theorem emitAndComplete_faults_iff {ys : List Word} {s : State} :
    (∃ r, emitAndComplete ys s = .fault r) ↔ s.hasRoom ys.length = false := by
  cases h : s.hasRoom ys.length with
  | false => exact ⟨fun _ => rfl, fun _ => ⟨_, emitAndComplete_waits h⟩⟩
  | true => simp [emitAndComplete_room h]

/-- R11: there is always room for no word. -/
@[simp] theorem hasRoom_zero (s : State) : s.hasRoom 0 = true := by
  unfold State.hasRoom
  split <;> simp

/-- R120, R223: at a legal length an accepted block stops exactly when its outputs find no room. -/
theorem processAccepted_faults_iff {xs : List Word} {s : State} (h1 : 1 ≤ s.coefLen.toNat)
    (h2 : s.coefLen.toNat ≤ Config.maxCoeffsLen) :
    (∃ r, processAccepted xs s = .fault r) ↔ s.hasRoom xs.length = false := by
  simp only [processAccepted, if_neg (show ¬ s.coefLen.toNat = 0 by omega), if_neg (Nat.not_lt.mpr h2)]
  rw [emitAndComplete_faults_iff, convolve_length]
  simp [State.hasRoom]

/-- R102, R223: SET_BULK stops exactly when its data words are not all there. -/
theorem execSetBulk_faults_iff {n : Nat} {s : State} : (∃ r, execSetBulk n s = .fault r) ↔ s.dataIn.length < n := by
  rw [execSetBulk, takeData_faults_iff, or_iff_left]
  rintro ⟨r, h⟩
  split_ifs at h

/-- R120, R121, R223: PROCESS_BLOCK stops exactly when its data words are not all there or the outputs of a block that
is not too long find no room. -/
theorem execProcessBlock_faults_iff {n : Nat} {s : State} (h1 : 1 ≤ s.coefLen.toNat)
    (h2 : s.coefLen.toNat ≤ Config.maxCoeffsLen) :
    (∃ r, execProcessBlock n s = .fault r) ↔
      s.dataIn.length < n ∨ s.hasRoom (dataOutCount (.processBlock n) s) = false := by
  by_cases hlen : s.dataIn.length < n
  · exact iff_of_true ⟨_, takeData_waits _ hlen⟩ (.inl hlen)
  rw [execProcessBlock, takeData_faults_iff, or_iff_right hlen, or_iff_right hlen, dataOutCount]
  by_cases hmax : Config.maxInputLen < n
  · simp [hmax, Nat.not_le.mpr hmax]
  · rw [if_neg hmax, if_pos (Nat.not_lt.mp hmax)]
    by_cases h0 : n = 0
    · simp [h0]
    · have haccept := processAccepted_faults_iff (xs := s.dataIn.take n) (s := { s with dataIn := s.dataIn.drop n }) h1 h2
      rw [List.length_take, Nat.min_eq_left (Nat.not_lt.mp hlen)] at haccept
      rw [if_neg h0]
      exact haccept

/-- R161, R223: at a legal length GET_COEFS stops exactly when its outputs find no room. -/
theorem execGetCoefs_faults_iff {s : State} (h : s.coefLen.toNat ≤ Config.maxCoeffsLen) :
    (∃ r, execGetCoefs s = .fault r) ↔ s.hasRoom s.coefLen.toNat = false := by
  rw [execGetCoefs, if_neg (Nat.not_lt.mpr h), emitAndComplete_faults_iff, List.length_map, List.length_range]

/-- R11, R71, R223: at a legal length a command stops exactly when it waits for data words or for room. -/
theorem exec_faults_iff (i : Instr) {s : State} (h1 : 1 ≤ s.coefLen.toNat)
    (h2 : s.coefLen.toNat ≤ Config.maxCoeffsLen) :
    (∃ r, exec i s = .fault r) ↔ s.dataIn.length < i.dataInCount ∨ s.hasRoom (dataOutCount i s) = false := by
  cases i with
  | nop => simp [exec, execNop, dataOutCount, Instr.dataInCount]
  | setScalar => simp [exec, execSetScalar, takeData_faults_iff, dataOutCount, Instr.dataInCount]
  | setBulk n => simp [exec, execSetBulk_faults_iff, dataOutCount, Instr.dataInCount]
  | processBlock n => exact execProcessBlock_faults_iff h1 h2
  | getCoefs => simp [exec, execGetCoefs_faults_iff h2, dataOutCount, Instr.dataInCount]
  | getHistory => simp [exec, execGetHistory, emitAndComplete_faults_iff, dataOutCount, Instr.dataInCount]
  | getStatus => simp [exec, execGetStatus, emitAndComplete_faults_iff, dataOutCount, Instr.dataInCount]

/-- R76: the step of a command word that decodes is the command it decodes to. -/
theorem step_of_decode_ok {s : State} {w : CmdWord} {rest : List CmdWord} {i : Instr} (hc : s.cmdIn = w :: rest)
    (hd : decode w = .ok i) : step s = exec i { s with cmdIn := rest } := by
  simp only [step, acceptCommand_cons hc, hd]

/-- R76: the step of a command word that decode rejects is its rejection. -/
theorem step_of_decode_error {s : State} {w : CmdWord} {rest : List CmdWord} {e : DecodeReject}
    (hc : s.cmdIn = w :: rest) (hd : decode w = .error e) :
    step s = .next (rejectDecode e w { s with cmdIn := rest }) := by
  simp only [step, acceptCommand_cons hc, hd]

/-- Settles O9: a word that decode rejects never waits, and a command waits as `exec_faults_iff` says. -/
theorem stepWaitsExactlyForChannels : Obligations.StepWaitsExactlyForChannels := by
  intro s hs
  cases hc : s.cmdIn with
  | nil => exact iff_of_true ⟨.waitCommand, by rw [step, acceptCommand_nil hc]⟩ (.inl rfl)
  | cons w rest =>
    cases hd : decode w with
    | ok i =>
      have hexec := exec_faults_iff i (s := { s with cmdIn := rest }) hs.lenPos hs.lenMax
      rw [step_of_decode_ok hc hd]
      refine hexec.trans ⟨fun h => .inr ⟨w, rest, i, rfl, hd, h⟩, ?_⟩
      rintro (hnil | ⟨_, _, j, hcons, hj, h⟩)
      · cases hnil
      · cases hcons
        cases hd.symm.trans hj
        exact h
    | error e =>
      rw [step_of_decode_error hc hd]
      refine iff_of_false (fun ⟨_, h⟩ => by cases h) ?_
      rintro (hnil | ⟨_, _, j, hcons, hj, -⟩)
      · cases hnil
      · cases hcons
        cases hd.symm.trans hj

/-! ### The event of a step (R186, R188) -/

/-- R7, R186: an event offered to an empty channel is appended unless the host's timing makes the block find the
channel full, because the channel holds at least one record. -/
theorem PostsOne.from_empty {ev : Event} {s t : State} (h : PostsOne ev s t) (hempty : s.evtHeld = 0) :
    t.evtDraws = s.evtDraws + 1 ∧
      if Config.evtFull s.evtDraws then t.events = s.events ∧ t.sticky.getLsbD 5 = true
      else t.events = s.events ++ [ev] ∧ t.sticky.getLsbD 5 = s.sticky.getLsbD 5 := by
  obtain ⟨hdraws, taken, -, -, hout⟩ := h
  have hdepth : ¬ Config.evtFifoDepth ≤ s.evtHeld - taken := by simp [hempty, Config.evtFifoDepth]
  refine ⟨hdraws, ?_⟩
  rcases hout with ⟨-, hfull, hev, hst⟩ | ⟨hfull, hev, hst⟩
  · rw [if_neg (by simp [hfull])]
    exact ⟨hev, hst⟩
  · rw [if_pos (hfull.resolve_left hdepth)]
    exact ⟨hev, hst⟩

/-- `s` and `t` differ by at most one offered event, as far as the event channel and `STICKY` bit 5 can tell. -/
def OffersAtMostOne (s t : State) : Prop :=
  (PostsNone s t ∧ t.sticky.getLsbD 5 = s.sticky.getLsbD 5) ∨ ∃ ev, PostsOne ev s t

/-- R183: a rejection offers one event. -/
theorem raiseCmdError_offers (e : CmdErr) (w : CmdWord) (s : State) : OffersAtMostOne s (raiseCmdError e w s) := by
  obtain ⟨-, -, -, hposts, -⟩ := raiseCmdError_rejects e w s
  exact .inr ⟨_, hposts⟩

/-- R142, R143: the diagnostic offers at most one event. -/
theorem diagnose_offers (x : Word) (s : State) : OffersAtMostOne s (diagnose x s) := by
  rcases diagnose_cases x s with ⟨-, -, hposts, -⟩ | ⟨-, hsame⟩
  · exact .inr ⟨_, hposts⟩
  · rw [hsame]
    exact .inl ⟨⟨rfl, rfl, rfl⟩, rfl⟩

/-- R188: a command offers at most one event. -/
theorem exec_offers {i : Instr} {s t : State} (h : exec i s = .next t) : OffersAtMostOne s t := by
  have hnone : PostsNone s s ∧ s.sticky.getLsbD 5 = s.sticky.getLsbD 5 := ⟨⟨rfl, rfl, rfl⟩, rfl⟩
  cases i with
  | nop => rw [execNop_next h]; exact .inl hnone
  | setScalar =>
    obtain ⟨v, rest, -, rfl⟩ := execSetScalar_next h
    exact .inl hnone
  | setBulk n =>
    obtain ⟨-, ⟨-, rfl⟩ | ⟨-, rfl⟩ | ⟨-, -, rfl⟩⟩ := execSetBulk_next h
    · exact raiseCmdError_offers _ _ { s with dataIn := s.dataIn.drop n }
    · exact raiseCmdError_offers _ _ { s with dataIn := s.dataIn.drop n }
    · exact .inl hnone
  | processBlock n =>
    obtain ⟨-, ⟨-, rfl⟩ | ⟨-, rfl⟩ | ⟨-, -, hacc⟩⟩ := execProcessBlock_next h
    · exact raiseCmdError_offers _ _ { s with dataIn := s.dataIn.drop n }
    · exact .inl hnone
    · obtain ⟨-, -, -, rfl⟩ := processAccepted_next hacc
      exact diagnose_offers _ { s with dataIn := s.dataIn.drop n }
  | getCoefs =>
    obtain ⟨-, -, rfl⟩ := execGetCoefs_next h
    exact .inl hnone
  | getHistory =>
    obtain ⟨-, rfl⟩ := execGetHistory_next h
    exact .inl hnone
  | getStatus =>
    obtain ⟨-, rfl⟩ := execGetStatus_next h
    exact .inl hnone

/-- R188: a step offers at most one event. -/
theorem step_offers {s t : State} (h : step s = .next t) : OffersAtMostOne s t := by
  obtain ⟨w, rest, -, ⟨i, -, hexec⟩ | ⟨e, -, rfl⟩⟩ := step_cases h
  · exact exec_offers (s := { s with cmdIn := rest }) hexec
  · exact raiseCmdError_offers _ w { s with cmdIn := rest }

/-- Settles O16: a step offers at most one event, and from an empty channel only the host's timing can lose it. -/
theorem emptyChannelDeliversEvents : Obligations.EmptyChannelDeliversEvents := by
  intro s t hempty hstep
  rcases step_offers hstep with hnone | ⟨ev, hposts⟩
  · exact .inl hnone
  · obtain ⟨hdraws, hout⟩ := hposts.from_empty hempty
    refine .inr ⟨hdraws, ?_⟩
    by_cases hfull : Config.evtFull s.evtDraws = true
    · rw [if_pos hfull] at hout ⊢
      exact hout
    · rw [if_neg hfull] at hout ⊢
      exact ⟨⟨ev, hout.1⟩, hout.2⟩

end Sys2Proof.Machine

namespace Sys2Proof.Machine

/-! ### Rounding a quotient (R12) -/

/-- R12: the rounded quotient is the next integer, where the remainder is at least half of `k`, or the truncated one,
where it is at most half; the even one of the two where it is half. -/
theorem roundDiv_cases (m k : Nat) :
    (roundDiv m k = m / k + 1 ∧ k ≤ 2 * (m % k) ∨ roundDiv m k = m / k ∧ 2 * (m % k) ≤ k) ∧
      (2 * (m % k) = k → roundDiv m k % 2 = 0) := by
  unfold roundDiv
  split <;> omega

theorem roundDiv_bounds (m k : Nat) : m / k ≤ roundDiv m k ∧ roundDiv m k ≤ m / k + 1 := by
  have := (roundDiv_cases m k).1
  omega

/-- Settles O43: on either side of the half, the distance from `m / k` is the remainder or what it lacks of `k`. -/
theorem roundingIsNearestTiesToEven : Obligations.RoundingIsNearestTiesToEven := by
  intro m k hk
  have hm : (k : Int) * (m / k : Nat) + (m % k : Nat) = m := by exact_mod_cast Nat.div_add_mod m k
  have hlt := Nat.mod_lt m hk
  obtain ⟨⟨hr, hle⟩ | ⟨hr, hle⟩, heven⟩ := roundDiv_cases m k
  · have hdist : (k : Int) * (roundDiv m k : Int) - m = k - (m % k : Nat) := by
      rw [hr]; push_cast at hm ⊢; linarith
    rw [hdist, abs_of_nonneg (by omega)]
    exact ⟨by omega, fun h => heven (by omega)⟩
  · have hdist : (k : Int) * (roundDiv m k : Int) - m = -(m % k : Nat) := by
      rw [hr]; linarith
    rw [hdist, abs_neg, Nat.abs_cast]
    exact ⟨by omega, fun h => heven (by omega)⟩

/-- R12: no integer is nearer to `m / k` than the rounded quotient, which is even where another is as near. -/
theorem roundDiv_nearest {m k : Nat} (hk : 0 < k) (j : Int) :
    |(k : Int) * roundDiv m k - m| ≤ |k * j - m| ∧
      (j ≠ roundDiv m k → |(k : Int) * roundDiv m k - m| = |k * j - m| → roundDiv m k % 2 = 0) := by
  obtain ⟨hle, heven⟩ := roundingIsNearestTiesToEven m k hk
  by_cases hj : j = roundDiv m k
  · exact ⟨by rw [hj], fun h => absurd hj h⟩
  · have hapart : (k : Int) ≤ |(k : Int) * roundDiv m k - m| + |k * j - m| := calc
      (k : Int) ≤ k * |(roundDiv m k : Int) - j| :=
        le_mul_of_one_le_right (by omega) (Int.one_le_abs (by omega))
      _ = |((k : Int) * roundDiv m k - m) - (k * j - m)| := by
        rw [← Nat.abs_cast k, ← abs_mul, Nat.abs_cast]; congr 1; ring
      _ ≤ _ := abs_sub _ _
    exact ⟨by omega, fun _ heq => heven (by omega)⟩

/-! ### Narrowing an exact magnitude to 53 bits (R9, R12, R138, R140) -/

/-- The quotient in units of the last place of its significand: it fits 53 bits, and fills them where bits are
dropped. -/
theorem significand_bounds (num den : Nat) :
    num / (den * 2 ^ droppedBits num den) < 2 ^ 53 ∧
      (droppedBits num den ≠ 0 → 2 ^ 52 ≤ num / (den * 2 ^ droppedBits num den)) := by
  have hhi : num / den < 2 ^ (53 + droppedBits num den) :=
    Nat.lt_log2_self.trans_le (Nat.pow_le_pow_right two_pos (by unfold droppedBits; omega))
  rw [← Nat.div_div_eq_div_mul]
  refine ⟨Nat.div_lt_of_lt_mul (by rwa [← pow_add, add_comm]), fun hd => ?_⟩
  have hq : num / den ≠ 0 := fun h => hd (by simp [droppedBits, h])
  have hlo : 2 ^ (52 + droppedBits num den) ≤ num / den :=
    (Nat.pow_le_pow_right two_pos (by unfold droppedBits at hd ⊢; omega)).trans (Nat.log2_self_le hq)
  exact (Nat.le_div_iff_mul_le (Nat.two_pow_pos _)).mpr (by rwa [← pow_add])

/-- R9: the value of the bits `d * 2^52 + r`: the hidden bit and a carry out of the significand `r` add themselves to
the exponent field. -/
theorem magUnits_packWord_significand (neg : Bool) {d r : Nat} (hr : r ≤ 2 ^ 53) (hd : d ≠ 0 → 2 ^ 52 ≤ r)
    (hlt : d * 2 ^ 52 + r < 2 ^ 63) : magUnits (packWord neg (d * 2 ^ 52 + r)) = r * 2 ^ d := by
  rw [magUnits_packWord neg _ hlt]
  by_cases hsub : r < 2 ^ 52
  · have hd0 : d = 0 := by_contra fun h => absurd (hd h) (by omega)
    subst hd0
    rw [if_pos (by omega)]
    omega
  · rw [if_neg (by omega)]
    rcases hr.lt_or_eq with hr | rfl
    · rw [show (d * 2 ^ 52 + r) % 2 ^ 52 = r - 2 ^ 52 by omega, show (d * 2 ^ 52 + r) / 2 ^ 52 - 1 = d by omega,
        show 2 ^ 52 + (r - 2 ^ 52) = r by omega]
    · rw [show (d * 2 ^ 52 + 2 ^ 53) % 2 ^ 52 = 0 by omega, show (d * 2 ^ 52 + 2 ^ 53) / 2 ^ 52 - 1 = d + 1 by omega]
      ring

/-- R138: a finite narrowed word did not overflow. -/
theorem nearestBits_of_finite {neg : Bool} {num den : Nat}
    (hfin : isFinite64 (packWord neg (nearestBits num den)) = true) :
    nearestBits num den = droppedBits num den * 2 ^ 52 + roundDiv num (den * 2 ^ droppedBits num den) := by
  refine (min_choice _ _).resolve_right fun hinf => ?_
  rw [isFinite64, packWord_expField neg _ ((nearestBits_le num den).trans_lt infBits_lt), decide_eq_true_eq] at hfin
  exact hfin (by rw [nearestBits, hinf]; rfl)

/-- R9, R12: a finite narrowed word holds a rounded quotient in units of some `2^d`, with the parity of its fraction;
where `d > 0` the quotient fills the significand. -/
theorem narrowed_word_significand {w : Word} {neg : Bool} {num den : Nat}
    (hw : w = packWord neg (nearestBits num den)) (hfin : isFinite64 w = true) :
    ∃ d, (d ≠ 0 → 2 ^ 52 ≤ num / (den * 2 ^ d)) ∧ magUnits w = roundDiv num (den * 2 ^ d) * 2 ^ d ∧
      fracField w % 2 = roundDiv num (den * 2 ^ d) % 2 := by
  subst hw
  have hlt := (nearestBits_le num den).trans_lt infBits_lt
  obtain ⟨hhi, hlo⟩ := significand_bounds num den
  obtain ⟨hmin, hmax⟩ := roundDiv_bounds num (den * 2 ^ droppedBits num den)
  refine ⟨droppedBits num den, hlo, ?_⟩
  rw [packWord_fracField neg _ hlt]
  rw [nearestBits_of_finite hfin] at hlt ⊢
  exact ⟨magUnits_packWord_significand neg (by omega) (fun hd => (hlo hd).trans hmin) hlt, by omega⟩

/-- R9: a magnitude of at least `2^52` times `2^d` units has no bits below `2^d`. -/
theorem two_pow_dvd_magUnits {v : Word} {d : Nat} (h : 2 ^ 52 * 2 ^ d ≤ magUnits v) : 2 ^ d ∣ magUnits v := by
  have hfrac := fracField_lt v
  have hpos := Nat.two_pow_pos d
  unfold magUnits at h ⊢
  by_cases he : expField v = 0
  · rw [if_pos he] at h
    omega
  · rw [if_neg he] at h ⊢
    have hlt : 2 ^ 52 * 2 ^ d < 2 ^ 52 * 2 ^ (expField v - 1 + 1) := calc
      2 ^ 52 * 2 ^ d ≤ (2 ^ 52 + fracField v) * 2 ^ (expField v - 1) := h
      _ < 2 ^ 53 * 2 ^ (expField v - 1) := Nat.mul_lt_mul_of_pos_right (by omega) (Nat.two_pow_pos _)
      _ = 2 ^ 52 * 2 ^ (expField v - 1 + 1) := by ring
    have hexp : d < expField v - 1 + 1 := (Nat.pow_lt_pow_iff_right one_lt_two).mp (Nat.lt_of_mul_lt_mul_left hlt)
    exact (pow_dvd_pow 2 (Nat.lt_succ_iff.mp hexp)).mul_left _

/-- R12: no binary64 magnitude is nearer to `num / den` than the finite narrowed word's, whose fraction is even where
another magnitude is as near.  A magnitude on the grid of the result's last place is covered by the rounding of the
quotient; one off that grid lies below the result's binade, whose lower end is strictly nearer. -/
theorem narrowed_word_nearest {w : Word} {neg : Bool} {num den : Nat} (hw : w = packWord neg (nearestBits num den))
    (hfin : isFinite64 w = true) (hden : 0 < den) (z : Word) :
    |(magUnits w * den : Int) - num| ≤ |(magUnits z * den : Int) - num| ∧
      (magUnits z ≠ magUnits w → |(magUnits w * den : Int) - num| = |(magUnits z * den : Int) - num| →
        fracField w % 2 = 0) := by
  obtain ⟨d, hlo, hmag, hpar⟩ := narrowed_word_significand hw hfin
  have hk : 0 < den * 2 ^ d := Nat.mul_pos hden (Nat.two_pow_pos d)
  have hgrid : ∀ j : Nat, ((j * 2 ^ d : Nat) * den : Int) = (den * 2 ^ d : Nat) * (j : Int) := by
    intro j; push_cast; ring
  rw [hmag, hpar, hgrid]
  by_cases hz : 2 ^ d ∣ magUnits z
  · obtain ⟨j, hj⟩ := hz
    obtain ⟨hle, heven⟩ := roundDiv_nearest (m := num) hk j
    rw [hj, mul_comm (2 ^ d) j, hgrid]
    exact ⟨hle, fun hne => heven fun h => hne (by rw [Int.ofNat_inj.mp h])⟩
  · have hd : d ≠ 0 := fun h => hz (by simp [h])
    have hbelow : magUnits z < 2 ^ 52 * 2 ^ d := not_le.mp fun h => hz (two_pow_dvd_magUnits h)
    have hnum : 2 ^ 52 * (den * 2 ^ d) ≤ num := (Nat.le_div_iff_mul_le hk).mp (hlo hd)
    have hz' : magUnits z * den < 2 ^ 52 * (den * 2 ^ d) := calc
      magUnits z * den < 2 ^ 52 * 2 ^ d * den := Nat.mul_lt_mul_of_pos_right hbelow hden
      _ = 2 ^ 52 * (den * 2 ^ d) := by ring
    have hbinade : |((den * 2 ^ d : Nat) * (2 ^ 52 : Nat) : Int) - num| < |(magUnits z * den : Int) - num| := by
      rw [← Nat.cast_mul, ← Nat.cast_mul, abs_of_nonpos (by omega), abs_of_neg (by omega)]
      omega
    have hlt := ((roundDiv_nearest hk (2 ^ 52 : Nat)).1).trans_lt hbinade
    exact ⟨hlt.le, fun _ heq => absurd heq hlt.ne⟩

/-! ### Narrowing an exact signed value (R9, R12) -/

theorem natAbs_valueUnits (v : Word) : (valueUnits v).natAbs = magUnits v := by
  unfold valueUnits
  split <;> simp

/-- R9: the magnitude is the value without its sign. -/
theorem abs_valueUnits (v : Word) : |valueUnits v| = magUnits v := by
  rw [Int.abs_eq_natAbs, natAbs_valueUnits]

/-- A value is at least as far from `x / den` as its magnitude is from that of `x / den`. -/
theorem abs_magUnits_sub_le (v : Word) (x : Int) (den : Nat) :
    |(magUnits v * den : Int) - x.natAbs| ≤ |valueUnits v * den - x| := by
  rw [← abs_valueUnits, ← Nat.abs_cast den, ← abs_mul, Nat.abs_cast, Int.natCast_natAbs]
  exact abs_abs_sub_abs_le _ _

/-- A value of the sign of `x` is as far from `x / den` as its magnitude is from that of `x / den`. -/
theorem abs_valueUnits_sub_of_sign {v : Word} {x : Int} (hneg : signBit v = true → x ≤ 0)
    (hpos : signBit v = false → 0 ≤ x) (den : Nat) :
    |valueUnits v * den - x| = |(magUnits v * den : Int) - x.natAbs| := by
  unfold valueUnits
  cases hs : signBit v with
  | false => rw [Int.natAbs_of_nonneg (hpos hs)]; rfl
  | true =>
    rw [Int.ofNat_natAbs_of_nonpos (hneg hs), if_pos rfl, ← abs_neg]
    congr 1; ring

/-- R12: no value is nearer to `x / den` than the finite word narrowed from it with the sign of `x`; its fraction is
even where another value is as near.  The word's own mirror image is as near only where both are zero. -/
theorem signed_narrowed_word_nearest {w : Word} {neg : Bool} {x : Int} {den : Nat}
    (hw : w = packWord neg (nearestBits x.natAbs den)) (hfin : isFinite64 w = true) (hden : 0 < den)
    (hneg : neg = true → x ≤ 0) (hpos : neg = false → 0 ≤ x) (z : Word) :
    |valueUnits w * den - x| ≤ |valueUnits z * den - x| ∧
      (valueUnits z ≠ valueUnits w → |valueUnits w * den - x| = |valueUnits z * den - x| → fracField w % 2 = 0) := by
  have hsign : signBit w = neg := by
    rw [hw, packWord_signBit neg _ ((nearestBits_le _ _).trans_lt infBits_lt)]
  have hnear := narrowed_word_nearest hw hfin hden
  have hsame := abs_valueUnits_sub_of_sign (hsign ▸ hneg) (hsign ▸ hpos) den
  have hle : ∀ v, |valueUnits w * den - x| ≤ |valueUnits v * den - x| := fun v =>
    hsame.trans_le ((hnear v).1.trans (abs_magUnits_sub_le v x den))
  refine ⟨hle z, fun hne heq => ?_⟩
  by_cases hmag : magUnits z = magUnits w
  · have hmirror : valueUnits z = -valueUnits w :=
      (abs_eq_abs.mp (by rw [abs_valueUnits, abs_valueUnits, hmag])).resolve_left hne
    have hzero : valueUnits w * den = 0 := by
      have hposZero : |valueUnits w * den - x| ≤ |0 * (den : Int) - x| := hle posZero
      rw [hmirror, neg_mul] at heq
      rcases abs_eq_abs.mp heq with h | h
      · linarith
      · have hx : x = 0 := by linarith
        rwa [hx, zero_mul, sub_zero, sub_zero, abs_zero, abs_nonpos_iff] at hposZero
    exact absurd (by rw [hmirror, (mul_eq_zero.mp hzero).resolve_right (by omega), neg_zero]) hne
  · exact (hnear z).2 hmag (le_antisymm (hnear z).1 (hsame ▸ heq ▸ abs_magUnits_sub_le z x den))

/-! ### Sums and products of finite words (R12) -/

/-- R12: a finite word is neither a NaN nor an infinity. -/
theorem not_nan_not_inf_of_finite {v : Word} (h : isFinite64 v = true) : isNaN64 v = false ∧ isInf64 v = false := by
  simp only [isFinite64, decide_eq_true_eq] at h
  simp [isNaN64, isInf64, h]

/-- The sign `fadd64` gives a sum: that of the exact sum, and for an exact zero the one of R141. -/
def sumSign (a b : Word) : Bool :=
  if valueUnits a + valueUnits b = 0 then signBit a && signBit b else decide (valueUnits a + valueUnits b < 0)

/-- R12: a sum of finite words is the exact sum, narrowed; the exact zero of R141 among them. -/
theorem fadd64_of_finite {a b : Word} (ha : isFinite64 a = true) (hb : isFinite64 b = true) :
    fadd64 a b = packWord (sumSign a b) (nearestBits (valueUnits a + valueUnits b).natAbs 1) := by
  obtain ⟨hna, hia⟩ := not_nan_not_inf_of_finite ha
  obtain ⟨hnb, hib⟩ := not_nan_not_inf_of_finite hb
  simp only [fadd64, sumSign, hna, hia, hnb, hib, Bool.or_self, Bool.false_eq_true, if_false]
  split
  · rw [‹valueUnits a + valueUnits b = 0›]; rfl
  · rfl

/-- R12: a product of finite words is the exact product, narrowed. -/
theorem fmul64_of_finite {a b : Word} (ha : isFinite64 a = true) (hb : isFinite64 b = true) :
    fmul64 a b = packWord (signBit a != signBit b) (nearestBits (valueUnits a * valueUnits b).natAbs (2 ^ 1074)) := by
  obtain ⟨hna, hia⟩ := not_nan_not_inf_of_finite ha
  obtain ⟨hnb, hib⟩ := not_nan_not_inf_of_finite hb
  rw [Int.natAbs_mul, natAbs_valueUnits, natAbs_valueUnits, fmul64, hna, hia, hnb, hib]
  rfl

/-- The sign of `fadd64` is a sign of the exact sum. -/
theorem sumSign_agrees (a b : Word) :
    (sumSign a b = true → valueUnits a + valueUnits b ≤ 0) ∧
      (sumSign a b = false → 0 ≤ valueUnits a + valueUnits b) := by
  unfold sumSign
  split
  · omega
  · simp only [decide_eq_true_eq, decide_eq_false_iff_not]; omega

/-- The sign of `fmul64` is a sign of the exact product. -/
theorem productSign_agrees (a b : Word) :
    ((signBit a != signBit b) = true → valueUnits a * valueUnits b ≤ 0) ∧
      ((signBit a != signBit b) = false → 0 ≤ valueUnits a * valueUnits b) := by
  have hprod : (0 : Int) ≤ magUnits a * magUnits b := by positivity
  cases ha : signBit a <;> cases hb : signBit b <;> simp [valueUnits, ha, hb, hprod]

/-- Settles O44: a sum is one narrowing of the exact sum, in units of 2^-1074. -/
theorem sumIsTheNearestBinary64 : Obligations.SumIsTheNearestBinary64 := by
  intro a b ha hb hfin z _
  obtain ⟨hneg, hpos⟩ := sumSign_agrees a b
  simpa using signed_narrowed_word_nearest (fadd64_of_finite ha hb) hfin one_pos hneg hpos z

/-- Settles O45: a product is one narrowing of the exact product, in units of 2^-2148. -/
theorem productIsTheNearestBinary64 : Obligations.ProductIsTheNearestBinary64 := by
  intro a b ha hb hfin z _
  obtain ⟨hneg, hpos⟩ := productSign_agrees a b
  have hnear := signed_narrowed_word_nearest (fmul64_of_finite ha hb) hfin (by positivity) hneg hpos z
  rwa [Nat.cast_pow, Nat.cast_ofNat] at hnear

end Sys2Proof.Machine

namespace Sys2Proof.Machine

/-! ### What a command can do (R56, R183) -/

/-- R103, R121, R185: the error with which a decoded command is rejected for its count, if any. -/
def countErr : Instr → Option CmdErr
  | .setBulk n => if 512 < n then some .coefTooMany else if n = 0 then some .coefEmpty else none
  | .processBlock n => if 512 < n then some .blockTooLong else none
  | .nop => none
  | .setScalar => none
  | .getCoefs => none
  | .getHistory => none
  | .getStatus => none

/-- The four ways a command that goes on can end: rejected for its count, a new filter, a filtered block, or nothing
but output words. -/
inductive Ends (s : State) : Instr → State → Prop
  /-- R103, R121, R183: the command takes its data words and is rejected for its count. -/
  | rejected {i : Instr} {e : CmdErr} (he : countErr i = some e) :
      Ends s i (raiseCmdError e (encode i) { s with dataIn := s.dataIn.drop i.dataInCount })
  /-- R101, R102: the `n` data words are the new filter. -/
  | setFilter {i : Instr} {n : Nat} (hi : i = .setBulk n ∨ i = .setScalar ∧ n = 1) (h1 : 1 ≤ n) (h2 : n ≤ 512)
      (hn : n ≤ s.dataIn.length) :
      Ends s i { s with
        coef := Memory.writeFrom s.coef 0 (s.dataIn.take n)
        coefLen := BitVec.ofNat 10 n
        dataIn := s.dataIn.drop n
        lastErr := 0 }
  /-- R120: a block of 1 to 512 samples. -/
  | filtered {n : Nat} {t : State} (h1 : 1 ≤ n) (h2 : n ≤ 512) (hn : n ≤ s.dataIn.length)
      (ht : processAccepted (s.dataIn.take n) { s with dataIn := s.dataIn.drop n } = .next t) :
      Ends s (.processBlock n) t
  /-- R122, R160 to R163: the empty block, NOP and the readbacks. -/
  | onlyOutputs {i : Instr} (hi : i ∈ [Instr.nop, .getCoefs, .getHistory, .getStatus, .processBlock 0])
      (ys : List Word) (hys : ys.length = dataOutCount i s) :
      Ends s i { s with dataOut := s.dataOut ++ ys, outRoom := s.outRoom.map (· - ys.length), lastErr := 0 }

/-- R122, R160: a command that only clears `LAST_ERR` emits no word. -/
theorem Ends.onlyClears {i : Instr} (s : State) (hi : i = .nop ∨ i = .processBlock 0) :
    Ends s i { s with lastErr := 0 } := by
  have hends := Ends.onlyOutputs (s := s) (i := i) (by rcases hi with rfl | rfl <;> simp) []
    (by rcases hi with rfl | rfl <;> rfl)
  simpa using hends

theorem execSetScalar_ends {s t : State} (h : execSetScalar s = .next t) : Ends s .setScalar t := by
  obtain ⟨v, rest, hd, rfl⟩ := execSetScalar_next h
  have hends := Ends.setFilter (s := s) (.inr ⟨rfl, rfl⟩) le_rfl (by decide) (by simp [hd])
  rwa [hd] at hends

theorem execSetBulk_ends {n : Nat} {s t : State} (h : execSetBulk n s = .next t) : Ends s (.setBulk n) t := by
  obtain ⟨hlen, ⟨hn, rfl⟩ | ⟨rfl, rfl⟩ | ⟨h1, h2, rfl⟩⟩ := execSetBulk_next h
  · exact .rejected (i := .setBulk n) (if_pos hn)
  · exact .rejected (i := .setBulk 0) rfl
  · exact .setFilter (.inl rfl) h1 h2 hlen

theorem execProcessBlock_ends {n : Nat} {s t : State} (h : execProcessBlock n s = .next t) :
    Ends s (.processBlock n) t := by
  obtain ⟨hlen, ⟨hn, rfl⟩ | ⟨rfl, rfl⟩ | ⟨h1, h2, hacc⟩⟩ := execProcessBlock_next h
  · exact .rejected (i := .processBlock n) (if_pos hn)
  · exact .onlyClears s (.inr rfl)
  · exact .filtered h1 h2 hlen hacc

/-- R161: GET_COEFS emits `COEF_LEN` words. -/
theorem execGetCoefs_ends {s t : State} (h : execGetCoefs s = .next t) : Ends s .getCoefs t := by
  obtain ⟨-, -, rfl⟩ := execGetCoefs_next h
  have hends := Ends.onlyOutputs (s := s) (i := .getCoefs) (by simp)
    ((List.range s.coefLen.toNat).map (Memory.read s.coef)) (by simp [dataOutCount])
  rwa [List.length_map, List.length_range] at hends

/-- R162: GET_HISTORY emits 1023 words. -/
theorem execGetHistory_ends {s t : State} (h : execGetHistory s = .next t) : Ends s .getHistory t := by
  obtain ⟨-, rfl⟩ := execGetHistory_next h
  have hends := Ends.onlyOutputs (s := s) (i := .getHistory) (by simp)
    ((List.range Config.histCap).map (Memory.read s.hist)) (by simp [dataOutCount])
  rwa [List.length_map, List.length_range] at hends

/-- R163: GET_STATUS emits two words. -/
theorem execGetStatus_ends {s t : State} (h : execGetStatus s = .next t) : Ends s .getStatus t := by
  obtain ⟨-, rfl⟩ := execGetStatus_next h
  exact .onlyOutputs (by simp) [statusWord s, s.diagCount] rfl

/-- R56: every command that goes on ends in one of the four ways. -/
theorem exec_ends {i : Instr} {s t : State} (h : exec i s = .next t) : Ends s i t := by
  cases i with
  | nop => rw [execNop_next h]; exact .onlyClears s (.inl rfl)
  | setScalar => exact execSetScalar_ends h
  | setBulk n => exact execSetBulk_ends h
  | processBlock n => exact execProcessBlock_ends h
  | getCoefs => exact execGetCoefs_ends h
  | getHistory => exact execGetHistory_ends h
  | getStatus => exact execGetStatus_ends h

/-! ### The one result code (R30, R181, R185) -/

/-- R121, R122: a block of at most 512 samples is not rejected for its count. -/
theorem countErr_processBlock {n : Nat} (h : n ≤ 512) : countErr (.processBlock n) = none :=
  if_neg (Nat.not_lt.mpr h)

/-- R102: a SET_BULK of 1 to 512 coefficients is not rejected for its count. -/
theorem countErr_setBulk {n : Nat} (h1 : 1 ≤ n) (h2 : n ≤ 512) : countErr (.setBulk n) = none := by
  simp only [countErr, if_neg (Nat.not_lt.mpr h2), if_neg (Nat.one_le_iff_ne_zero.mp h1)]

/-- R181: the result code of a word that decodes is that of its command's own count check. -/
theorem resultCode_of_decode_ok {w : CmdWord} {i : Instr} (hd : decode w = .ok i) :
    resultCode w = (countErr i).elim 0 CmdErr.code := by
  unfold resultCode
  rw [hd]
  cases i with
  | setBulk n => simp only [countErr]; split_ifs <;> rfl
  | processBlock n => simp only [countErr]; split_ifs <;> rfl
  | nop => rfl
  | setScalar => rfl
  | getCoefs => rfl
  | getHistory => rfl
  | getStatus => rfl

/-- R181: the result code of a word that decode rejects. -/
theorem resultCode_of_decode_error {w : CmdWord} {e : DecodeReject} (hd : decode w = .error e) :
    resultCode w = (decodeErr e).code := by
  simp only [resultCode, hd]

/-- R181: the codes a command's own count check gives. -/
theorem countErr_code_le (i : Instr) : (countErr i).elim 0 CmdErr.code ≤ 5 := by
  cases countErr i with
  | none => exact Nat.zero_le 5
  | some e => exact (code_range e).2

/-- R30: `LAST_ERR` after a command is the code of its count check. -/
theorem Ends.lastErr {i : Instr} {s t : State} (h : Ends s i t) :
    t.lastErr.toNat = (countErr i).elim 0 CmdErr.code := by
  cases h with
  | rejected he => rw [he, raiseCmdError_lastErr, code_toNat]; rfl
  | setFilter hi h1 h2 hn =>
    rcases hi with rfl | ⟨rfl, rfl⟩
    · rw [countErr_setBulk h1 h2]; rfl
    · rfl
  | filtered h1 h2 hn ht =>
    obtain ⟨-, -, -, rfl⟩ := processAccepted_next ht
    rw [countErr_processBlock h2]; rfl
  | onlyOutputs hi ys hys =>
    simp only [List.mem_cons, List.not_mem_nil, or_false] at hi
    obtain rfl | rfl | rfl | rfl | rfl := hi <;> rfl

/-- Settles O12: a word that decodes gives the code of its count check, any other the code of decode's check. -/
theorem lastErrIsTheResultCode : Obligations.LastErrIsTheResultCode := by
  intro s t w rest hc hstep
  obtain ⟨w', rest', hc', hends⟩ := step_cases hstep
  cases hc.symm.trans hc'
  rcases hends with ⟨i, hd, hexec⟩ | ⟨e, hd, rfl⟩
  · rw [resultCode_of_decode_ok hd, (exec_ends hexec).lastErr]
  · rw [resultCode_of_decode_error hd, raiseCmdError_lastErr, code_toNat]

/-! ### Frames (R23, R25, R27, R29, R34) -/

/-- Settles O23: of the four ways to end, only the new filter writes the filter. -/
theorem onlySetCommandsWriteFilter : Obligations.OnlySetCommandsWriteFilter := by
  intro i s t hexec hscalar hbulk
  cases exec_ends hexec with
  | rejected he => exact ⟨raiseCmdError_coef .., raiseCmdError_coefLen ..⟩
  | setFilter hi h1 h2 hn => exact (hi.elim (hbulk _) fun h => hscalar h.1).elim
  | filtered h1 h2 hn ht =>
    obtain ⟨-, -, -, rfl⟩ := processAccepted_next ht
    exact ⟨diagnose_coef .., diagnose_coefLen ..⟩
  | onlyOutputs hi ys hys => exact ⟨rfl, rfl⟩

/-- Settles O24: of the four ways to end, only the filtered block writes the history. -/
theorem onlyProcessBlockWritesHistory : Obligations.OnlyProcessBlockWritesHistory := by
  intro i s t hexec hblock
  cases exec_ends hexec with
  | rejected he => exact ⟨raiseCmdError_hist .., raiseCmdError_acc .., raiseCmdError_diagCount ..⟩
  | setFilter hi h1 h2 hn => exact ⟨rfl, rfl, rfl⟩
  | filtered h1 h2 hn ht => exact absurd rfl (hblock _)
  | onlyOutputs hi ys hys => exact ⟨rfl, rfl, rfl⟩

/-! ### `STICKY` (R31) -/

/-- R31, R183: apart from bit 5, a rejection sets the bit of its code and no other. -/
theorem raiseCmdError_sticky (e : CmdErr) (w : CmdWord) (s : State) {b : Nat} (hb : b ≠ 5) :
    (raiseCmdError e w s).sticky.getLsbD b =
      (s.sticky.getLsbD b || decide ((raiseCmdError e w s).lastErr.toNat = b + 1)) := by
  obtain ⟨hcode, hset, hkeep, -⟩ := raiseCmdError_rejects e w s
  have h1 := (code_range e).1
  rw [hcode]
  by_cases hbe : b = e.code - 1
  · rw [hbe, hset, decide_eq_true (by omega), Bool.or_true]
  · rw [hkeep b hbe hb, decide_eq_false (by omega), Bool.or_false]

/-- R142, R143: the diagnostic changes no bit of `STICKY` but bit 5. -/
theorem diagnose_sticky (x : Word) (s : State) {b : Nat} (hb : b ≠ 5) :
    (diagnose x s).sticky.getLsbD b = s.sticky.getLsbD b := by
  rcases diagnose_cases x s with ⟨-, -, -, hkeep⟩ | ⟨-, hsame⟩
  · exact hkeep b hb
  · rw [hsame]

/-- R31: apart from bit 5, a command sets the bit of the code it reports and no other. -/
theorem Ends.sticky {i : Instr} {s t : State} (h : Ends s i t) {b : Nat} (hb : b ≠ 5) :
    t.sticky.getLsbD b = (s.sticky.getLsbD b || decide (t.lastErr.toNat = b + 1)) := by
  cases h with
  | rejected he => exact raiseCmdError_sticky _ _ { s with dataIn := s.dataIn.drop i.dataInCount } hb
  | setFilter hi h1 h2 hn => simp
  | filtered h1 h2 hn ht =>
    obtain ⟨-, -, -, rfl⟩ := processAccepted_next ht
    simp [diagnose_sticky _ _ hb]
  | onlyOutputs hi ys hys => simp

/-- R31: apart from bit 5, a step sets the bit of the code it reports and no other. -/
theorem step_sticky {s t : State} (h : step s = .next t) {b : Nat} (hb : b ≠ 5) :
    t.sticky.getLsbD b = (s.sticky.getLsbD b || decide (t.lastErr.toNat = b + 1)) := by
  obtain ⟨w, rest, -, ⟨i, -, hexec⟩ | ⟨e, -, rfl⟩⟩ := step_cases h
  · exact (exec_ends hexec).sticky hb
  · exact raiseCmdError_sticky _ w { s with cmdIn := rest } hb

/-- R31: bit 5 is set by a lost event only. -/
theorem OffersAtMostOne.evtLost_iff {s t : State} (h : OffersAtMostOne s t) :
    t.sticky.getLsbD 5 = true ↔
      s.sticky.getLsbD 5 = true ∨ (t.evtDraws = s.evtDraws + 1 ∧ t.events = s.events) := by
  obtain ⟨⟨-, -, hdraws⟩, hbit⟩ | ⟨ev, hdraws, taken, -, -, hout⟩ := h
  · rw [hbit]; simp [hdraws]
  · rcases hout with ⟨-, -, hev, hbit⟩ | ⟨-, hev, hbit⟩
    · rw [hbit]; simp [hev]
    · simp [hdraws, hev, hbit]

/-- R181: the codes a step reports. -/
theorem step_lastErr_le {s t : State} (h : step s = .next t) : t.lastErr.toNat ≤ 5 := by
  obtain ⟨w, rest, -, ⟨i, -, hexec⟩ | ⟨e, -, rfl⟩⟩ := step_cases h
  · rw [(exec_ends hexec).lastErr]; exact countErr_code_le i
  · rw [raiseCmdError_lastErr, code_toNat]; exact (code_range _).2

/-- R31: bits 7:6 of `STICKY` are the bits of no code. -/
theorem step_sticky_reserved {s t : State} (h : step s = .next t) :
    t.sticky.extractLsb' 6 2 = s.sticky.extractLsb' 6 2 := by
  have hle := step_lastErr_le h
  ext b hb
  rw [BitVec.getElem_extractLsb', BitVec.getElem_extractLsb', step_sticky h (by omega),
    decide_eq_false (by omega), Bool.or_false]

/-- Settles O14: the bits of the codes, the bit of a lost event and the reserved bits, one lemma each. -/
theorem stickyBitsAreSetByTheirConditions : Obligations.StickyBitsAreSetByTheirConditions :=
  ⟨fun _ _ h => ⟨fun _ hb => step_sticky h (by omega), (step_offers h).evtLost_iff, step_sticky_reserved h⟩,
    fun _ _ _ => rfl⟩

/-! ### Refusals (R25, I1) -/

theorem takeData_refused {n : Nat} {s : State} {go : List Word → State → Host.Outcome State Fault Refusal}
    {r : Refusal} (h : takeData n s go = .refused r) :
    go (s.dataIn.take n) { s with dataIn := s.dataIn.drop n } = .refused r := by
  unfold takeData at h
  split at h
  · exact h
  · cases h

theorem emitAndComplete_ne_refused {ys : List Word} {s : State} {r : Refusal} :
    emitAndComplete ys s ≠ .refused r := by
  unfold emitAndComplete
  split <;> exact nofun

/-- I1: an accepted block with samples is refused exactly at `COEF_LEN = 0`. -/
theorem processAccepted_refused_iff {xs : List Word} {s : State} {r : Refusal} :
    processAccepted xs s = .refused r ↔ s.coefLen.toNat = 0 ∧ r = .zeroLength := by
  simp only [processAccepted]
  by_cases h0 : s.coefLen.toNat = 0
  · simp [h0, eq_comm]
  · rw [if_neg h0]
    refine iff_of_false ?_ (fun h => h0 h.1)
    split
    · exact nofun
    · exact emitAndComplete_ne_refused

/-- I1: only a `COEF_LEN` of 0 makes a command refused. -/
theorem exec_refused {i : Instr} {s : State} {r : Refusal} (h : exec i s = .refused r) : s.coefLen.toNat = 0 := by
  cases i with
  | nop => cases h
  | setScalar => cases takeData_refused (show execSetScalar s = _ from h)
  | setBulk n =>
    have hgo := takeData_refused (show execSetBulk n s = _ from h)
    split_ifs at hgo
  | processBlock n =>
    have hgo := takeData_refused (show execProcessBlock n s = _ from h)
    split_ifs at hgo
    exact (processAccepted_refused_iff.mp hgo).1
  | getCoefs =>
    rw [exec, execGetCoefs] at h
    split_ifs at h
    exact absurd h emitAndComplete_ne_refused
  | getHistory => exact absurd h emitAndComplete_ne_refused
  | getStatus => exact absurd h emitAndComplete_ne_refused

/-- Settles O10: a refusal needs `COEF_LEN = 0`, and a rejected command word is no refusal. -/
theorem legalStateIsNeverRefused : Obligations.LegalStateIsNeverRefused := by
  intro s hs r h
  cases hc : s.cmdIn with
  | nil => rw [step, acceptCommand_nil hc] at h; cases h
  | cons w rest =>
    cases hd : decode w with
    | ok i =>
      rw [step_of_decode_ok hc hd] at h
      exact absurd (exec_refused h) (Nat.one_le_iff_ne_zero.mp hs.lenPos)
    | error e => rw [step_of_decode_error hc hd] at h; cases h

/-- Settles O30: the block is accepted, and refused for its filter length. -/
theorem zeroLengthBlockIsRefused : Obligations.ZeroLengthBlockIsRefused := by
  intro s n h0 h1 h2 hn
  exact (execProcessBlock_accepts hn h1 h2).trans
    (processAccepted_refused_iff.mpr ⟨congrArg BitVec.toNat h0, rfl⟩)

/-! ### The state after reset (R36, R37) -/

/-- A RAM made from a list of words, read from its first index on, gives the list back. -/
theorem map_read_ofWords (vs : List Word) :
    (List.range vs.length).map (Memory.read (Memory.ofWords 0 vs)) = vs := by
  refine List.ext_getElem (by simp) fun k _ hk => ?_
  simp [read_ofWords, hk]

theorem read_reset_coef (k : Nat) : Memory.read State.reset.coef k = defaultCoefs.getD k 0 := by
  rw [State.reset, read_ofWords, if_pos (Nat.zero_le k), Nat.sub_zero]

theorem length_defaultCoefs : defaultCoefs.length = 63 := rfl

/-- R161: after reset GET_COEFS emits the default coefficients. -/
theorem execGetCoefs_reset : ∃ t, execGetCoefs State.reset = .next t ∧ t.dataOut = defaultCoefs :=
  ⟨_, (if_neg (by decide)).trans (emitAndComplete_room rfl), map_read_ofWords defaultCoefs⟩

/-- Settles O52: the coefficients are read from the list that makes the RAM; the other fields are listed. -/
theorem resetStateIsAsListed : Obligations.ResetStateIsAsListed := by
  refine ⟨fun k hk => ?_, length_defaultCoefs, fun k hk => ?_, rfl, read_nil, rfl, rfl, rfl, rfl, execGetCoefs_reset⟩
  · rw [read_reset_coef, List.getD_eq_getElem _ _ (length_defaultCoefs.symm ▸ hk), List.getElem?_eq_getElem]
  · rw [read_reset_coef, List.getD_eq_default _ _ (length_defaultCoefs.symm ▸ hk)]
    rfl

/-! ### Canonical words (R139, R141) -/

/-- R139, R141: what `Inv` says of `ACC`: the word is not `-0.0`, and a NaN is the canonical one. -/
def CanonicalWord (v : Word) : Prop := v ≠ negZero ∧ (isNaN64 v = true → v = canonicalNaN)

theorem posZero_canonical : CanonicalWord posZero := ⟨by decide, nofun⟩

/-- R141: the word `-0.0` is the zero with the sign set. -/
theorem eq_negZero {v : Word} (hsign : signBit v = true) (hzero : isZero64 v = true) : v = negZero := by
  simp only [isZero64, Bool.and_eq_true, decide_eq_true_eq] at hzero
  apply BitVec.eq_of_toNat_eq
  rw [toNat_eq_fields, hzero.1, hzero.2, hsign]
  rfl

/-- R140: a nonzero integer of units never narrows to zero. -/
theorem nearestBits_one_ne_zero {n : Nat} (hn : n ≠ 0) : nearestBits n 1 ≠ 0 := by
  have hbits : droppedBits n 1 * 2 ^ 52 + roundDiv n (1 * 2 ^ droppedBits n 1) ≠ 0 := by
    by_cases hd : droppedBits n 1 = 0
    · have hle := (roundDiv_bounds n 1).1
      rw [Nat.div_one] at hle
      rw [hd, pow_zero, mul_one]
      omega
    · omega
  exact (Nat.lt_min.mpr ⟨Nat.pos_of_ne_zero hbits, by decide⟩).ne'

/-- R9: a word packed from a sign and bits that are not all 0 is not `-0.0`. -/
theorem packWord_ne_negZero (neg : Bool) {bits : Nat} (hlt : bits < 2 ^ 63) (h : bits ≠ 0) :
    packWord neg bits ≠ negZero := by
  intro heq
  have hnat := congrArg BitVec.toNat heq
  rw [packWord_toNat neg bits hlt, show negZero.toNat = 2 ^ 63 from rfl] at hnat
  split at hnat <;> omega

/-- R141: a sum is `-0.0` only when its addends are. -/
theorem eq_negZero_of_fadd64_eq_negZero {a b : Word} (h : fadd64 a b = negZero) : a = negZero ∧ b = negZero := by
  have hinf : isInf64 negZero = false := by decide
  have hnan : canonicalNaN ≠ negZero := by decide
  unfold fadd64 at h
  split_ifs at h with _ hia _ hib hsum
  · exact absurd h hnan
  · exact absurd h hnan
  · rw [h, hinf] at hia; cases hia
  · rw [h, hinf] at hib; cases hib
  · obtain ⟨ha, hb⟩ : signBit a = true ∧ signBit b = true := by
      rw [← Bool.and_eq_true, ← packWord_signBit (signBit a && signBit b) 0 (by decide), h]
      rfl
    simp only [valueUnits, ha, hb, if_true] at hsum
    exact ⟨eq_negZero ha (magUnits_eq_zero.mp (by omega)), eq_negZero hb (magUnits_eq_zero.mp (by omega))⟩
  · exact absurd h (packWord_ne_negZero _ ((nearestBits_le _ _).trans_lt infBits_lt)
      (nearestBits_one_ne_zero (Int.natAbs_ne_zero.mpr hsum)))

/-- R139, R141: a sum whose first addend is not `-0.0` is canonical. -/
theorem fadd64_canonical {a : Word} (b : Word) (ha : a ≠ negZero) : CanonicalWord (fadd64 a b) :=
  ⟨fun h => ha (eq_negZero_of_fadd64_eq_negZero h).1,
    fun h => (fadd64_nan a b).resolve_right (by simp [h])⟩

/-- R127, R139, R141: the ascending sum starts at `+0.0`, so it is canonical. -/
theorem ascendingSum_canonical (c x : Nat → Word) (L : Nat) : CanonicalWord (ascendingSum c x L) := by
  induction L with
  | zero => exact posZero_canonical
  | succ L ih =>
    rw [ascendingSum, List.range_succ, List.foldl_append]
    exact fadd64_canonical _ ih.1

/-- R139, R141: every output of a block is canonical. -/
theorem convolve_canonical {coef hist : Memory} {L N : Nat} {y : Word} (hy : y ∈ convolve coef hist L N) :
    CanonicalWord y := by
  obtain ⟨n, -, rfl⟩ := List.mem_map.mp hy
  exact ascendingSum_canonical _ _ L

/-- R28: the last output of a block is canonical, and so is the `ACC` kept where there is none. -/
theorem convolve_getLastD_canonical {coef hist : Memory} {L N : Nat} {acc : Word} (h : CanonicalWord acc) :
    CanonicalWord ((convolve coef hist L N).getLastD acc) := by
  rcases List.mem_cons.mp List.getLastD_mem_cons with heq | hmem
  · rwa [heq]
  · exact convolve_canonical hmem

/-! ### The invariant (R25, R30, R31, R51, R81, R133, R186) -/

/-- Settles O54: `COEF` is made from 63 words, and the channels and the status fields are empty. -/
theorem resetSatisfiesInvariant : Obligations.ResetSatisfiesInvariant where
  coefWf := ofWords_wf _ _ _ (by decide)
  histWf := rfl
  lenPos := by decide
  lenMax := by decide
  lastErrLegal := by decide
  stickyReserved := rfl
  takenLe := le_rfl
  heldLe := Nat.zero_le _
  eventsLegal := nofun
  accNotNegZero := by decide
  accCanonical := nofun

/-- R35: the invariant does not speak of the input channels. -/
theorem Inv.inputs {s : State} (hs : Inv s) (cmds : List CmdWord) (data : List Word) :
    Inv { s with cmdIn := cmds, dataIn := data } :=
  { hs with }

/-- R82: the ERROR event of a rejection is legal. -/
theorem legalEvent_error (e : CmdErr) (w : CmdWord) : legalEvent ⟨.error, errorPayload e w⟩ := fun _ => ⟨e, w, rfl⟩

/-- R143: a DENORMAL event is legal, whatever its payload. -/
theorem legalEvent_denormal (p : BitVec 64) : legalEvent ⟨.denormal, p⟩ := nofun

/-- R31: bits 7:6 of `STICKY` are set by no event. -/
theorem postEvent_sticky_reserved (kd : EventKind) (p : BitVec 64) (s : State) :
    (postEvent kd p s).sticky.extractLsb' 6 2 = s.sticky.extractLsb' 6 2 := by
  rcases postEvent_cases kd p s with ⟨-, -, -, hst⟩ | ⟨-, -, hst⟩
  · rw [hst]
  · rw [hst, setStickyBit_reserved _ _ (by decide)]

/-- R186: an offered event keeps the channel within its depth, because it is appended only below it. -/
theorem PostsOne.channel {ev : Event} {s t : State} (h : PostsOne ev s t) (htaken : s.evtTaken ≤ s.events.length)
    (hheld : s.evtHeld ≤ Config.evtFifoDepth) :
    t.evtTaken ≤ t.events.length ∧ t.evtHeld ≤ Config.evtFifoDepth := by
  obtain ⟨-, taken, hle, hnew, hout⟩ := h
  unfold State.evtHeld at hle hheld hout ⊢
  rcases hout with ⟨hroom, -, hev, -⟩ | ⟨-, hev, -⟩
  · rw [hnew, hev, List.length_append, List.length_singleton]
    omega
  · rw [hnew, hev]
    omega

/-- R81: an offered event adds no other record than itself. -/
theorem PostsOne.mem_events {ev ev' : Event} {s t : State} (h : PostsOne ev s t) (hmem : ev' ∈ t.events) :
    ev' ∈ s.events ∨ ev' = ev := by
  obtain ⟨-, _, -, -, ⟨-, -, hev, -⟩ | ⟨-, hev, -⟩⟩ := h
  · rw [hev] at hmem; simpa using hmem
  · rw [hev] at hmem; exact .inl hmem

/-- R186: posting a legal event keeps the invariant. -/
theorem Inv.postEvent {s : State} {kd : EventKind} {p : BitVec 64} (hs : Inv s) (hev : legalEvent ⟨kd, p⟩) :
    Inv (postEvent kd p s) :=
  have hposts := postEvent_posts kd p s
  have hchannel := hposts.channel hs.takenLe hs.heldLe
  { hs with
    stickyReserved := (postEvent_sticky_reserved kd p s).trans hs.stickyReserved
    takenLe := hchannel.1
    heldLe := hchannel.2
    eventsLegal := fun ev hmem => (hposts.mem_events hmem).elim (hs.eventsLegal ev) (fun h => h ▸ hev) }

/-- R183: a rejection keeps the invariant. -/
theorem Inv.raiseCmdError {s : State} (hs : Inv s) (e : CmdErr) (w : CmdWord) : Inv (raiseCmdError e w s) :=
  have hcode := code_range e
  Inv.postEvent
    { hs with
      lastErrLegal := (code_toNat e).trans_le hcode.2
      stickyReserved := (setStickyBit_reserved _ _ (by omega)).trans hs.stickyReserved }
    (legalEvent_error e w)

/-- R142, R143: the diagnostic keeps the invariant. -/
theorem Inv.diagnose {s : State} (hs : Inv s) (x : Word) : Inv (diagnose x s) := by
  rw [Machine.diagnose]
  split
  · exact Inv.postEvent { hs with } (legalEvent_denormal _)
  · exact hs

/-- R101, R102: a new filter of 1 to 512 coefficients keeps the invariant. -/
theorem Inv.setFilter {s : State} (hs : Inv s) {n : Nat} (h1 : 1 ≤ n) (h2 : n ≤ 512) :
    Inv { s with
      coef := Memory.writeFrom s.coef 0 (s.dataIn.take n)
      coefLen := BitVec.ofNat 10 n
      dataIn := s.dataIn.drop n
      lastErr := 0 } :=
  have hlen : (BitVec.ofNat 10 n).toNat = n := by rw [BitVec.toNat_ofNat, Nat.mod_eq_of_lt (by omega)]
  { hs with
    coefWf := writeFrom_wf _ 0 hs.coefWf (by rw [Nat.zero_add]; exact (List.length_take_le _ _).trans h2)
    lenPos := h1.trans_eq hlen.symm
    lenMax := hlen.trans_le h2
    lastErrLegal := Nat.zero_le 5 }

/-- R133: append and shift keep `HIST` within its 1023 words. -/
theorem Inv.history_wf {s : State} (hs : Inv s) {xs : List Word} (hx : xs.length ≤ 512) :
    Memory.wf Config.histCap
      (shiftDown s.coefLen.toNat xs.length (appendBlock s.coefLen.toNat xs s.hist)) = true := by
  have hmax := hs.lenMax
  simp only [Config.maxCoeffsLen] at hmax
  refine shiftDown_wf _ (appendBlock_wf xs hs.histWf ?_) ?_ <;> simp only [Config.histCap] <;> omega

/-- R120: an accepted block of at most 512 samples keeps the invariant. -/
theorem Inv.processAccepted {xs : List Word} {s t : State} (hs : Inv s) (hx : xs.length ≤ 512)
    (ht : processAccepted xs s = .next t) : Inv t := by
  obtain ⟨-, -, -, rfl⟩ := processAccepted_next ht
  have hacc := convolve_getLastD_canonical (coef := s.coef)
    (hist := appendBlock s.coefLen.toNat xs s.hist) (L := s.coefLen.toNat) (N := xs.length)
    ⟨hs.accNotNegZero, hs.accCanonical⟩
  exact
    { hs.diagnose (xs.headD posZero) with
      histWf := hs.history_wf hx
      lastErrLegal := Nat.zero_le 5
      accNotNegZero := hacc.1
      accCanonical := hacc.2 }

/-- The four ways a command can end keep the invariant. -/
theorem Ends.inv {i : Instr} {s t : State} (h : Ends s i t) (hs : Inv s) : Inv t := by
  cases h with
  | rejected he => exact (hs.inputs s.cmdIn _).raiseCmdError _ _
  | setFilter hi h1 h2 hn => exact hs.setFilter h1 h2
  | filtered h1 h2 hn ht =>
    exact (hs.inputs s.cmdIn _).processAccepted ((List.length_take_le _ _).trans h2) ht
  | onlyOutputs hi ys hys => exact { hs with lastErrLegal := Nat.zero_le 5 }

/-- Settles O55: taking the command word keeps the invariant, and so do a rejection and the ends of a command. -/
theorem stepKeepsInvariant : Obligations.StepKeepsInvariant := by
  intro s t hs hstep
  obtain ⟨w, rest, -, ⟨i, -, hexec⟩ | ⟨e, -, rfl⟩⟩ := step_cases hstep
  · exact (exec_ends hexec).inv (hs.inputs rest s.dataIn)
  · exact (hs.inputs rest s.dataIn).raiseCmdError _ w

end Sys2Proof.Machine

namespace Sys2Proof.Machine

/-! ### Replacing the filter (R24, R58, R102, R103) -/

/-- R20: `COEF_LEN` holds every accepted number of coefficients. -/
theorem toNat_coefLen_ofNat {n : Nat} (h : n ≤ 512) : (BitVec.ofNat 10 n).toNat = n := by
  rw [BitVec.toNat_ofNat, Nat.mod_eq_of_lt (by omega)]

/-- R102: after `n` data words are written to a RAM from index 0 on, word `k < n` is data word `k`. -/
theorem getElem?_eq_read_writeFrom_take {m : Memory} {size n k : Nat} {vs : List Word} (hm : Memory.wf size m = true)
    (hsize : n ≤ size) (hn : n ≤ vs.length) (hk : k < n) :
    vs[k]? = some (Memory.read (Memory.writeFrom m 0 (vs.take n)) k) := by
  have htake : (vs.take n).length = n := List.length_take_of_le hn
  rw [read_writeFrom _ 0 k hm (by omega), if_pos (by omega), Nat.sub_zero, List.getD_eq_getElem?_getD,
    List.getElem?_take_of_lt hk, List.getElem?_eq_getElem (hk.trans_le hn), Option.getD_some]

/-- R103, R183: a rejected command leaves a code in `LAST_ERR` and the filter as it was. -/
theorem raiseCmdError_code_and_keepsFilter (e : CmdErr) (w : CmdWord) (s : State) :
    (raiseCmdError e w s).lastErr ≠ 0 ∧ KeepsFilter s (raiseCmdError e w s) := by
  refine ⟨?_, raiseCmdError_coef .., raiseCmdError_coefLen ..⟩
  rw [raiseCmdError_lastErr]
  cases e <;> decide

/-- Settles O21: both rejections keep the filter, and an accepted SET_BULK writes all `n` words and their number. -/
theorem setBulkIsAllOrNothing : Obligations.SetBulkIsAllOrNothing := by
  intro s t n hs hexec
  obtain ⟨hlen, ⟨-, rfl⟩ | ⟨-, rfl⟩ | ⟨-, h512, rfl⟩⟩ := execSetBulk_next hexec
  · exact .inr (raiseCmdError_code_and_keepsFilter ..)
  · exact .inr (raiseCmdError_code_and_keepsFilter ..)
  · exact .inl ⟨rfl, toNat_coefLen_ofNat h512, fun k => getElem?_eq_read_writeFrom_take hs.coefWf h512 hlen⟩

/-- Settles O7: `step` takes the word from the command channel and runs what it decodes to. -/
theorem stepRunsDecodedCommand : Obligations.StepRunsDecodedCommand :=
  fun _ _ _ _ => step_of_decode_ok

end Sys2Proof.Machine

namespace Sys2Proof.Machine

/-! ### Decode, check by check (R72, R76) -/

/-- R72: the seven defined opcodes. -/
def definedOpcodes : List (BitVec 8) := [0x00#8, 0x01#8, 0x02#8, 0x03#8, 0x10#8, 0x11#8, 0x12#8]

/-- R72, R75: the opcodes whose command has no count. -/
def uncountedOpcodes : List (BitVec 8) := [0x00#8, 0x01#8, 0x10#8, 0x11#8, 0x12#8]

/-- R72: the opcode and the count of a command select it. -/
theorem commandOf_opcode (i : Instr) : commandOf i.opcode i.countValue = some i := by cases i <;> rfl

/-- R75: a command without a count has 0 in its COUNT field. -/
theorem countValue_of_not_hasCount {i : Instr} (h : i.hasCount = false) : i.countValue = 0 :=
  (commandOf_some (commandOf_opcode i)).2.2 h

/-- R73: the well-formed commands are those whose count has 16 bits. -/
theorem wellFormed_iff (i : Instr) : i.wellFormed = true ↔ i.countValue < 65536 := by
  cases i <;> simp [Instr.wellFormed, Instr.countValue]

/-- R77: an opcode that is not defined selects no command. -/
theorem commandOf_of_not_defined {opc : BitVec 8} (cnt : Nat) (h : opc ∉ definedOpcodes) :
    commandOf opc cnt = none := by
  simp only [definedOpcodes, List.mem_cons, List.not_mem_nil, or_false, not_or] at h
  simp [commandOf, h]

/-- R72: a defined opcode selects a command. -/
theorem commandOf_of_defined {opc : BitVec 8} (cnt : Nat) (h : opc ∈ definedOpcodes) :
    ∃ i, commandOf opc cnt = some i := by
  simp only [definedOpcodes, List.mem_cons, List.not_mem_nil, or_false] at h
  rcases h with rfl | rfl | rfl | rfl | rfl | rfl | rfl <;> exact ⟨_, rfl⟩

/-- R75: an opcode without count selects a command without count. -/
theorem commandOf_of_uncounted {opc : BitVec 8} (cnt : Nat) (h : opc ∈ uncountedOpcodes) :
    ∃ i, commandOf opc cnt = some i ∧ i.hasCount = false := by
  simp only [uncountedOpcodes, List.mem_cons, List.not_mem_nil, or_false] at h
  rcases h with rfl | rfl | rfl | rfl | rfl <;> exact ⟨_, rfl, rfl⟩

/-- R76: the first check. -/
theorem decode_of_not_defined {w : CmdWord} (h : opcField w ∉ definedOpcodes) :
    decode w = .error .illegalOpcode := by
  rw [decode, commandOf_of_not_defined _ h]

/-- R76: the second check. -/
theorem decode_of_rsv {w : CmdWord} (h : opcField w ∈ definedOpcodes) (hrsv : rsvField w ≠ 0) :
    decode w = .error .rsvNonzero := by
  obtain ⟨i, hi⟩ := commandOf_of_defined (countField w) h
  simp only [decode, hi, if_pos hrsv]

/-- R76: the third check. -/
theorem decode_of_count {w : CmdWord} (h : opcField w ∈ uncountedOpcodes) (hrsv : rsvField w = 0)
    (hcount : countField w ≠ 0) : decode w = .error .countNonzero := by
  obtain ⟨i, hi, hnone⟩ := commandOf_of_uncounted (countField w) h
  simp only [decode, hi, if_neg (not_not_intro hrsv), if_pos (And.intro hnone hcount)]

/-- R76: a word with a command's opcode and count and a zero `RSV` passes every check. -/
theorem decode_of_fields {w : CmdWord} {i : Instr} (hopc : opcField w = i.opcode) (hrsv : rsvField w = 0)
    (hcount : countField w = i.countValue) : decode w = .ok i := by
  have hpass : ¬ (i.hasCount = false ∧ i.countValue ≠ 0) := fun h => h.2 (countValue_of_not_hasCount h.1)
  simp only [decode, hopc, hcount, commandOf_opcode, if_neg (not_not_intro hrsv), if_neg hpass]

/-- R76: `decode_of_fields` for a word put together from its fields. -/
theorem decode_append {i : Instr} {cnt : BitVec 16} (h : cnt.toNat = i.countValue) :
    decode (i.opcode ++ 0#8 ++ cnt : CmdWord) = .ok i :=
  decode_of_fields (opcField_append ..) (rsvField_append ..) ((countField_append ..).trans h)

/-! ### The round trip (R70, R79) -/

/-- Settles O1: the word of a well-formed command has the command's opcode and count, and these select it. -/
theorem encodeThenDecodeReturnsCommand : Obligations.EncodeThenDecodeReturnsCommand := by
  intro i hwf
  rw [wellFormed_iff] at hwf
  exact decode_append ((BitVec.toNat_ofNat ..).trans (Nat.mod_eq_of_lt hwf))

/-- R70, R75: a word that decodes has its command's opcode and count in its fields. -/
theorem fields_of_decode_ok {w : CmdWord} {i : Instr} (h : decode w = .ok i) :
    i.opcode = opcField w ∧ rsvField w = 0 ∧ i.countValue = countField w := by
  obtain ⟨hcmd, hrsv, hzero⟩ := decode_ok h
  obtain ⟨hopc, hcounted, huncounted⟩ := commandOf_some hcmd
  refine ⟨hopc, hrsv, ?_⟩
  cases hhas : i.hasCount with
  | true => exact hcounted hhas
  | false => rw [huncounted hhas, hzero hhas]

/-- Settles O2: the fields of the word are those of the command, and a word is its fields. -/
theorem decodedWordIsTheCommandsWord : Obligations.DecodedWordIsTheCommandsWord := by
  intro w i h
  obtain ⟨hopc, hrsv, hcount⟩ := fields_of_decode_ok h
  refine ⟨(wellFormed_iff i).mpr (hcount.trans_lt (countField_lt w)), ?_⟩
  calc encode i = opcField w ++ rsvField w ++ BitVec.ofNat 16 (countField w) := by rw [encode, hopc, hrsv, hcount]
    _ = opcField w ++ rsvField w ++ w.extractLsb' 0 16 := by rw [countField, BitVec.ofNat_toNat, BitVec.setWidth_eq]
    _ = w := append_fields w

/-- Settles O57: every line but `.cmd` is encoded from a well-formed command, whose data words it lists. -/
theorem assembledLinesAreWholeCommands : Obligations.AssembledLinesAreWholeCommands := by
  intro l haccept hraw
  have hwhole (i : Instr) (hwf : i.wellFormed = true) (hword : (asmEncode l).1 = encode i)
      (hdata : (asmEncode l).2.length = i.dataInCount) :
      ∃ i, decode (asmEncode l).1 = .ok i ∧ (asmEncode l).2.length = i.dataInCount :=
    ⟨i, hword ▸ encodeThenDecodeReturnsCommand i hwf, hdata⟩
  cases l with
  | nop => exact hwhole .nop rfl rfl rfl
  | setScalar v => exact hwhole .setScalar rfl rfl rfl
  | setBulk n vs =>
    obtain ⟨hlen, hwf⟩ := Bool.and_eq_true_iff.mp haccept
    exact hwhole (.setBulk n) hwf rfl ((List.length_map _).trans (of_decide_eq_true hlen))
  | processBlock n vs =>
    obtain ⟨hlen, hwf⟩ := Bool.and_eq_true_iff.mp haccept
    exact hwhole (.processBlock n) hwf rfl ((List.length_map _).trans (of_decide_eq_true hlen))
  | getCoefs => exact hwhole .getCoefs rfl rfl rfl
  | getHistory => exact hwhole .getHistory rfl rfl rfl
  | getStatus => exact hwhole .getStatus rfl rfl rfl
  | raw w vs => exact absurd rfl (hraw w vs)

/-- Settles O4: the sixteen words are concrete. -/
theorem workedEncodingsDecode : Obligations.WorkedEncodingsDecode := by
  unfold Obligations.WorkedEncodingsDecode
  decide

/-! ### Rejected command words (R74 to R77) -/

/-- R76, R183: the step of a command word that decode rejects is a rejection that takes no data words. -/
theorem step_rejects_of_decode_error {s : State} {w : CmdWord} {rest : List CmdWord} {e : DecodeReject}
    (hc : s.cmdIn = w :: rest) (hd : decode w = .error e) :
    ∃ t, step s = .next t ∧ EndsRejected (decodeErr e) w 0 { s with cmdIn := rest } t :=
  ⟨_, step_of_decode_error hc hd, raiseCmdError_rejects ..⟩

/-- Settles O3: the three checks and the word that passes them, each on the fields of `opc ++ rsv ++ cnt`. -/
theorem decodeChecksInOrder : Obligations.DecodeChecksInOrder := by
  refine ⟨fun opc rsv cnt => ⟨fun hopc => ?_, fun hopc hrsv => ?_, fun hopc hrsv hcnt => ?_,
    decode_append (i := .nop) rfl, decode_append (i := .setScalar) rfl, decode_append (i := .setBulk cnt.toNat) rfl,
    decode_append (i := .processBlock cnt.toNat) rfl, decode_append (i := .getCoefs) rfl,
    decode_append (i := .getHistory) rfl, decode_append (i := .getStatus) rfl⟩, rfl, rfl, rfl, fun s w e hd => ?_⟩
  · apply decode_of_not_defined
    rwa [opcField_append]
  · apply decode_of_rsv
    · rwa [opcField_append]
    · rwa [rsvField_append]
  · apply decode_of_count
    · rwa [opcField_append]
    · rwa [rsvField_append]
    · rw [countField_append]
      exact fun h => hcnt (BitVec.eq_of_toNat_eq h)
  · obtain ⟨t, hstep, -, -, -, -, -, -, -, hdata, -⟩ :=
      step_rejects_of_decode_error (s := { s with cmdIn := w :: s.cmdIn }) rfl hd
    exact ⟨t, hstep, hdata⟩

/-- R77: none of the defined opcodes lies in the two illegal ranges. -/
theorem not_illegal_of_defined : ∀ opc ∈ definedOpcodes,
    ¬ ((0x04 ≤ opc.toNat ∧ opc.toNat ≤ 0x0F) ∨ 0x13 ≤ opc.toNat) := by decide

/-- Settles O5: an opcode of the illegal ranges fails the first check. -/
theorem illegalOpcodesAreRejected : Obligations.IllegalOpcodesAreRejected := by
  refine ⟨fun s w rest hc hrange => ?_, by decide +kernel⟩
  exact step_rejects_of_decode_error hc (decode_of_not_defined fun hdef => not_illegal_of_defined _ hdef hrange)

/-- R75: the opcodes without count are defined. -/
theorem uncountedOpcodes_subset : uncountedOpcodes ⊆ definedOpcodes := by decide

/-- Settles O6: a nonzero `RSV` fails the second check, and with a zero `RSV` a reserved COUNT fails the third. -/
theorem reservedFieldsAreRejected : Obligations.ReservedFieldsAreRejected := by
  rintro s w rest hc (⟨hopc, hrsv⟩ | ⟨hopc, hcount⟩)
  · exact step_rejects_of_decode_error hc (decode_of_rsv hopc hrsv)
  · by_cases hrsv : rsvField w = 0
    · have hcount : countField w ≠ 0 := fun h => hcount (BitVec.eq_of_toNat_eq h)
      exact step_rejects_of_decode_error hc (decode_of_count hopc hrsv hcount)
    · exact step_rejects_of_decode_error hc (decode_of_rsv (uncountedOpcodes_subset hopc) hrsv)

/-! ### The ERROR payload (R82) -/

/-- R82: every limit fits its 16-bit field. -/
theorem CmdErr.limit_le (e : CmdErr) : e.limit ≤ 512 := by cases e <;> decide

/-- R82: the payload as a number. -/
theorem toNat_errorPayload (e : CmdErr) (w : CmdWord) :
    (errorPayload e w).toNat = e.code * 2 ^ 48 + e.limit * 2 ^ 32 + w.toNat := by
  have hcode := code_range e
  have hlimit := e.limit_le
  have hw := w.isLt
  rw [errorPayload, BitVec.toNat_setWidth, BitVec.toNat_append, BitVec.toNat_append, BitVec.toNat_ofNat,
    BitVec.toNat_ofNat, Nat.mod_eq_of_lt (show e.code < 2 ^ 8 by omega),
    Nat.mod_eq_of_lt (show e.limit < 2 ^ 16 by omega),
    ← Nat.shiftLeft_add_eq_or_of_lt (show e.limit < 2 ^ 16 by omega), ← Nat.shiftLeft_add_eq_or_of_lt hw]
  simp only [Nat.shiftLeft_eq]
  omega

/-- R82: a field of the payload as a number. -/
theorem toNat_errorPayload_field (e : CmdErr) (w : CmdWord) (start len : Nat) :
    ((errorPayload e w).extractLsb' start len).toNat =
      (e.code * 2 ^ 48 + e.limit * 2 ^ 32 + w.toNat) / 2 ^ start % 2 ^ len := by
  rw [BitVec.extractLsb'_toNat, toNat_errorPayload, Nat.shiftRight_eq_div_pow]

/-- R82: the limits, by code. -/
theorem limit_eq (e : CmdErr) : e.limit = if e.code = 1 ∨ e.code = 3 then 512 else if e.code = 2 then 1 else 0 := by
  cases e <;> rfl

/-- Settles O17: the payload is `code * 2^48 + limit * 2^32 + w`, and code, limit and `w` fit their fields. -/
theorem errorPayloadLayout : Obligations.ErrorPayloadLayout := by
  intro e w
  have hcode := code_range e
  have hlimit := e.limit_le
  have hw := w.isLt
  rw [← limit_eq]
  refine ⟨BitVec.eq_of_toNat_eq ?_, ?_, ?_, hcode.1, hcode.2, BitVec.eq_of_toNat_eq ?_⟩ <;>
    rw [toNat_errorPayload_field]
  · omega
  · omega
  · omega
  · change _ = 0
    omega

/-! ### Data words in and out (R71) -/

/-- R11: emitting no word leaves the data-out channel as it was. -/
theorem emits_nil {s t : State} (hout : t.dataOut = s.dataOut) (hroom : t.outRoom = s.outRoom) : Emits [] s t :=
  ⟨by rw [hout, List.append_nil], by simp [hroom]⟩

/-- R71: a command that goes on takes its data words, and emits its output words or is rejected without any. -/
theorem Ends.moves {i : Instr} {s t : State} (h : Ends s i t) :
    TakesData i.dataInCount s t ∧
      ((t.lastErr = 0 ∧ ∃ ys, ys.length = dataOutCount i s ∧ Emits ys s t) ∨ (t.lastErr ≠ 0 ∧ Emits [] s t)) := by
  cases h with
  | rejected he =>
    exact ⟨⟨raiseCmdError_dataIn .., raiseCmdError_cmdIn ..⟩,
      .inr ⟨(raiseCmdError_code_and_keepsFilter ..).1, emits_nil (raiseCmdError_dataOut ..) (raiseCmdError_outRoom ..)⟩⟩
  | setFilter hi h1 h2 hn =>
    rcases hi with rfl | ⟨rfl, rfl⟩ <;> exact ⟨⟨rfl, rfl⟩, .inl ⟨rfl, [], rfl, emits_nil rfl rfl⟩⟩
  | filtered h1 h2 hn ht =>
    obtain ⟨-, -, -, rfl⟩ := processAccepted_next ht
    have htake := List.length_take_of_le hn
    refine ⟨⟨diagnose_dataIn .., diagnose_cmdIn ..⟩, .inl ⟨rfl, _, ?_, rfl, ?_⟩⟩
    · rw [convolve_length, htake]
      exact (if_pos h2).symm
    · rw [convolve_length]
  | onlyOutputs hi ys hys =>
    refine ⟨?_, .inl ⟨rfl, ys, hys, rfl, rfl⟩⟩
    simp only [List.mem_cons, List.not_mem_nil, or_false] at hi
    rcases hi with rfl | rfl | rfl | rfl | rfl <;> exact ⟨rfl, rfl⟩

/-- Settles O11: `Ends.moves`, whose two cases exclude each other by `LAST_ERR`. -/
theorem commandsMoveTheirDataCounts : Obligations.CommandsMoveTheirDataCounts := by
  intro i s t hexec
  obtain ⟨htakes, ⟨hzero, hemits⟩ | ⟨hcode, hnone⟩⟩ := (exec_ends hexec).moves
  · exact ⟨htakes, fun _ => hemits, fun h => absurd hzero h⟩
  · exact ⟨htakes, fun h => absurd h hcode, fun _ => hnone⟩

end Sys2Proof.Machine

namespace Sys2Proof.Machine

/-! ### The coefficient store (R101 to R105) -/

/-- Settles O18: with its data word present the command is one write to `COEF[0]`, and read after write gives `COEF`. -/
theorem setScalarReplacesFilter : Obligations.SetScalarReplacesFilter := by
  intro s v rest hs hd
  exact ⟨_, execSetScalar_enough hd, fun k => read_write 0 v k hs.coefWf, rfl, rfl, rfl,
    ⟨rfl, rfl, rfl, rfl, rfl⟩, ⟨rfl, rfl, rfl⟩, emits_nil rfl rfl⟩

/-- R24, R102: `n` words written from index 0 on leave the words from `n` on as they were. -/
theorem read_writeFrom_take_of_le {m : Memory} {size n k : Nat} (vs : List Word) (hm : Memory.wf size m = true)
    (hsize : n ≤ size) (hk : n ≤ k) : Memory.read (Memory.writeFrom m 0 (vs.take n)) k = Memory.read m k := by
  have hlen := List.length_take_le n vs
  rw [read_writeFrom _ 0 k hm (by omega), if_neg (by omega)]

/-- Settles O19: the command is one run of writes from index 0 on; below `n` it reads as the data, above as before. -/
theorem setBulkReplacesFilter : Obligations.SetBulkReplacesFilter := by
  intro s n hs h1 h512 hlen
  exact ⟨_, execSetBulk_accepts hlen h1 h512, fun k => getElem?_eq_read_writeFrom_take hs.coefWf h512 hlen,
    fun k => read_writeFrom_take_of_le s.dataIn hs.coefWf h512, toNat_coefLen_ofNat h512, ⟨rfl, rfl⟩,
    ⟨rfl, rfl, rfl, rfl, rfl⟩, ⟨rfl, rfl, rfl⟩, emits_nil rfl rfl⟩

/-- Settles O22: with one data word, both commands write it to `COEF[0]`. -/
theorem setBulkOneEqualsSetScalar : Obligations.SetBulkOneEqualsSetScalar := by
  intro s v rest hd
  have hbulk := execSetBulk_accepts (n := 1) (s := s) (by simp [hd]) le_rfl (by decide)
  rw [hd] at hbulk
  exact ⟨hbulk, (execSetScalar_enough hd).trans hbulk.symm⟩

/-- R70, R72: the command word of a SET_BULK. -/
theorem encode_setBulk {n : Nat} (h : n < 65536) : encode (.setBulk n) = BitVec.ofNat 32 (0x02000000 + n) := by
  have hword : (0x02#8 ++ 0#8 ++ BitVec.ofNat 16 n).toNat = 0x02000000 + n := by
    rw [BitVec.toNat_append, BitVec.toNat_ofNat, Nat.mod_eq_of_lt h, ← Nat.shiftLeft_add_eq_or_of_lt h]
    rfl
  refine BitVec.eq_of_toNat_eq (hword.trans ?_)
  rw [BitVec.toNat_ofNat, Nat.mod_eq_of_lt (by omega)]

/-- R103: a SET_BULK of more than 512 words takes them and is rejected with code 1. -/
theorem setBulk_tooMany_rejects {s : State} {n : Nat} (hword : n < 65536) (hlen : n ≤ s.dataIn.length)
    (hn : 512 < n) :
    ∃ t, exec (.setBulk n) s = .next t ∧ EndsRejected .coefTooMany (BitVec.ofNat 32 (0x02000000 + n)) n s t := by
  rw [← encode_setBulk hword]
  exact ⟨_, execSetBulk_tooMany hlen hn, raiseCmdError_rejects _ _ { s with dataIn := s.dataIn.drop n }⟩

/-- R103: a SET_BULK of no word is rejected with code 2. -/
theorem setBulk_zero_rejects (s : State) :
    ∃ t, exec (.setBulk 0) s = .next t ∧ EndsRejected .coefEmpty 0x02000000#32 0 s t :=
  ⟨_, execSetBulk_zero s, raiseCmdError_rejects .coefEmpty 0x02000000#32 s⟩

/-- R161: GET_COEFS reads the filter and the data-out channel only. -/
theorem execGetCoefs_of_keepsFilter {s t u : State} (hfilter : KeepsFilter s t) (hemits : Emits [] s t)
    (h : execGetCoefs s = .next u) : ∃ u', execGetCoefs t = .next u' ∧ u'.dataOut = u.dataOut := by
  obtain ⟨hcoef, hlen⟩ := hfilter
  obtain ⟨hout, hroom⟩ := hemits
  rw [List.append_nil] at hout
  obtain ⟨h512, hfits, rfl⟩ := execGetCoefs_next h
  have hfits' : t.hasRoom ((List.range t.coefLen.toNat).map (Memory.read t.coef)).length = true := by
    simpa [State.hasRoom, hroom, hlen] using hfits
  refine ⟨_, (if_neg (Nat.not_lt.mpr (hlen ▸ h512))).trans (emitAndComplete_room hfits'), ?_⟩
  simp only [hout, hlen, hcoef]

/-- Settles O20: either rejection keeps the filter, so after the one from reset GET_COEFS emits the reset words. -/
theorem rejectedSetBulkKeepsFilter : Obligations.RejectedSetBulkKeepsFilter := by
  refine ⟨fun s n hword hlen => ⟨setBulk_tooMany_rejects hword hlen, ?_⟩, fun data hdata => ?_⟩
  · rintro rfl
    exact setBulk_zero_rejects s
  · obtain ⟨t, hexec, hcode, hbit, -, hpost, hfilter, -, hemits, -⟩ :=
      setBulk_tooMany_rejects (s := { State.reset with dataIn := data }) (n := 513) (by decide) hdata.ge (by decide)
    obtain ⟨u₀, hreset, hwords⟩ := execGetCoefs_reset
    obtain ⟨u, hget, hsame⟩ := execGetCoefs_of_keepsFilter (s := State.reset) hfilter hemits hreset
    exact ⟨t, u, hexec, BitVec.eq_of_toNat_eq hcode, hbit, hpost, hget, hsame.trans hwords⟩

end Sys2Proof.Machine

namespace Sys2Proof.Machine

/-! ### One block (R120 to R133, R142, R143) -/

/-- R120: a block of 1 to 512 samples that goes on is an accepted one. -/
theorem processBlock_next {s t : State} {n : Nat} (h1 : 1 ≤ n) (h512 : n ≤ 512)
    (h : exec (.processBlock n) s = .next t) :
    n ≤ s.dataIn.length ∧ processAccepted (s.dataIn.take n) { s with dataIn := s.dataIn.drop n } = .next t := by
  obtain ⟨hlen, ⟨hn, -⟩ | ⟨rfl, -⟩ | ⟨-, -, hacc⟩⟩ := execProcessBlock_next h
  · omega
  · omega
  · exact ⟨hlen, hacc⟩

/-- R120, R223: in a legal state a block of 1 to 512 samples with its data words and its room completes. -/
theorem processBlock_completes {s : State} {n : Nat} (hs : Inv s) (h1 : 1 ≤ n) (h512 : n ≤ 512)
    (hlen : n ≤ s.dataIn.length) (hroom : s.hasRoom n = true) : ∃ t, exec (.processBlock n) s = .next t := by
  rw [exec, execProcessBlock_accepts hlen h1 h512]
  refine processAccepted_completes hs.lenPos hs.lenMax ?_
  rw [List.length_take_of_le hlen]
  exact hroom

/-- R126, R127: output `j` of an accepted block is the ascending sum over the appended history. -/
theorem getElem?_convolve_append {s : State} {n j : Nat} (hs : Inv s) (h512 : n ≤ 512) (hj : j < n) :
    (convolve s.coef (appendBlock s.coefLen.toNat (s.dataIn.take n) s.hist) s.coefLen.toNat n)[j]? =
      some (ascendingSum (Memory.read s.coef)
        (fun k => afterAppend s (s.dataIn.take n) (s.coefLen.toNat - 1 + j - k)) s.coefLen.toNat) := by
  rw [convolve_get _ _ _ _ _ hj]
  simp only [read_append_eq_afterAppend _ _ hs ((List.length_take_le _ _).trans h512)]

/-- R28: the last of at least one output is the word `ACC` keeps. -/
theorem getLast?_convolve {coef hist : Memory} {L N : Nat} {acc : Word} (hN : 1 ≤ N) :
    (convolve coef hist L N).getLast? = some ((convolve coef hist L N).getLastD acc) := by
  have hne := List.ne_nil_of_length_pos (hN.trans_eq (convolve_length coef hist L N).symm)
  rw [List.getLastD_eq_getLast?, List.getLast?_eq_some_getLast hne, Option.getD_some]

/-- Settles O25: the block completes, and its fields are those of `processAccepted_next`. -/
theorem processBlockOutputs : Obligations.ProcessBlockOutputs := by
  intro s n hs h1 h512 hlen hroom
  obtain ⟨t, hexec⟩ := processBlock_completes hs h1 h512 hlen hroom
  refine ⟨t, _, hexec, convolve_length _ _ _ n, fun j => getElem?_convolve_append hs h512, ?_⟩
  obtain ⟨-, hacc⟩ := processBlock_next h1 h512 hexec
  obtain ⟨-, -, -, rfl⟩ := processAccepted_next hacc
  rw [List.length_take_of_le hlen]
  exact ⟨⟨rfl, by simp⟩, getLast?_convolve h1, rfl, ⟨diagnose_dataIn .., diagnose_cmdIn ..⟩, diagnose_coef ..,
    diagnose_coefLen ..⟩

/-- Settles O26: the shift moves the appended history down by `n` below `L-1` and keeps it elsewhere. -/
theorem processBlockHistory : Obligations.ProcessBlockHistory := by
  intro s t n hs h1 h512 hexec i
  obtain ⟨hlen, hacc⟩ := processBlock_next h1 h512 hexec
  obtain ⟨-, hL, -, rfl⟩ := processAccepted_next hacc
  have htake := List.length_take_of_le hlen
  have hL' : s.coefLen.toNat ≤ 512 := hL
  have hwf := appendBlock_wf (L := s.coefLen.toNat) (s.dataIn.take n) hs.histWf (by simp only [Config.histCap]; omega)
  simp only [htake]
  rw [read_shiftDown n i h1 hwf (by simp only [Config.histCap]; omega)]
  simp only [read_append_eq_afterAppend _ _ hs (htake.trans_le h512)]

/-- R142: a word is subnormal by its exponent field and its fraction. -/
theorem isSubnormal64_iff (x : Word) :
    isSubnormal64 x = true ↔ x.extractLsb' 52 11 = 0 ∧ x.extractLsb' 0 52 ≠ 0 := by
  have hfields : (x.extractLsb' 52 11).toNat = expField x ∧ (x.extractLsb' 0 52).toNat = fracField x := by
    simp [expField, fracField, Nat.shiftRight_eq_div_pow]
  simp [isSubnormal64, ← BitVec.toNat_inj, hfields]

/-- Settles O27: an accepted block differs from its diagnostic in no field the claim reads. -/
theorem denormalDiagnosticOncePerBlock : Obligations.DenormalDiagnosticOncePerBlock := by
  intro s t n x₀ rest h1 h512 hdata hexec
  obtain ⟨-, hacc⟩ := processBlock_next h1 h512 hexec
  obtain ⟨-, -, -, rfl⟩ := processAccepted_next hacc
  have hhead : (s.dataIn.take n).headD posZero = x₀ := by
    obtain ⟨m, rfl⟩ := Nat.exists_eq_add_of_le' h1
    rw [hdata]; rfl
  simp only [hhead, ← isSubnormal64_iff]
  refine ⟨fun b => diagnose_sticky x₀ { s with dataIn := s.dataIn.drop n }, ?_⟩
  rcases diagnose_cases x₀ { s with dataIn := s.dataIn.drop n } with ⟨hsub, hcount, hposts, -⟩ | ⟨hsub, hsame⟩
  · exact ⟨fun _ => ⟨hcount, hposts⟩, fun h => absurd hsub h⟩
  · rw [hsame]
    exact ⟨fun h => absurd h (by simp [hsub]), fun _ => ⟨rfl, rfl, rfl, rfl, rfl⟩⟩

/-- Settles O28: no data word is taken, and the count 0 is the case that only completes. -/
theorem emptyBlockIsNoOp : Obligations.EmptyBlockIsNoOp := by
  intro s
  rw [exec, execProcessBlock, takeData_enough _ (Nat.zero_le _)]
  rfl

/-- R70: a command word as a number, its opcode above its count. -/
theorem encode_eq_ofNat {i : Instr} (h : i.countValue < 65536) :
    encode i = BitVec.ofNat 32 (i.opcode.toNat * 2 ^ 24 + i.countValue) := by
  have hopc := i.opcode.isLt
  have hword : (i.opcode ++ (0 : BitVec 8) ++ BitVec.ofNat 16 i.countValue).toNat =
      i.opcode.toNat * 2 ^ 24 + i.countValue := by
    rw [BitVec.toNat_append, BitVec.toNat_append, BitVec.toNat_ofNat, Nat.mod_eq_of_lt h,
      ← Nat.shiftLeft_add_eq_or_of_lt h, ← Nat.shiftLeft_add_eq_or_of_lt (by decide)]
    simp only [BitVec.ofNat_eq_ofNat, BitVec.toNat_zero, Nat.shiftLeft_eq]
    omega
  refine BitVec.eq_of_toNat_eq (hword.trans ?_)
  rw [BitVec.toNat_ofNat, Nat.mod_eq_of_lt (by omega)]

/-- R70, R72: the command word of a PROCESS_BLOCK. -/
theorem encode_processBlock {n : Nat} (h : n < 65536) :
    encode (.processBlock n) = BitVec.ofNat 32 (0x03000000 + n) := by
  simpa [Instr.opcode, Instr.countValue] using encode_eq_ofNat (i := .processBlock n) h

/-- Settles O29: 513 and more are the rejected case of the count check, 512 is not. -/
theorem oversizedBlockIsRejected : Obligations.OversizedBlockIsRejected := by
  refine ⟨fun s n hn hword hlen => ?_, fun s hs hlen hroom => ?_⟩
  · rw [← encode_processBlock hword]
    exact ⟨_, execProcessBlock_tooLong hlen hn, raiseCmdError_rejects _ _ { s with dataIn := s.dataIn.drop n }⟩
  · obtain ⟨t, -, hexec, -, -, -, -, herr, -⟩ := processBlockOutputs s 512 hs (by decide) le_rfl hlen hroom
    exact ⟨t, hexec, herr⟩

/-- Settles O32: only an accepted block appends words, and these are the sums of `convolve`. -/
theorem outputWordsAreCanonical : Obligations.OutputWordsAreCanonical := by
  intro s t n ys hexec hout y hy
  obtain ⟨-, ⟨-, rfl⟩ | ⟨-, rfl⟩ | ⟨-, -, hacc⟩⟩ := execProcessBlock_next hexec
  · rw [raiseCmdError_dataOut, List.self_eq_append_right] at hout
    simp [hout] at hy
  · rw [List.self_eq_append_right] at hout
    simp [hout] at hy
  · obtain ⟨-, -, -, rfl⟩ := processAccepted_next hacc
    rw [← List.append_cancel_left hout] at hy
    exact convolve_canonical hy

/-! ### A stream of blocks (R131, R132, R134) -/

/-- R132: the samples in the order of time, as a state holds them: the retained history, then the data-in words. -/
def timeline (s : State) (i : Nat) : Word :=
  if i < s.coefLen.toNat - 1 then Memory.read s.hist i else s.dataIn.getD (i - (s.coefLen.toNat - 1)) 0

/-- R126, R127: the ascending sum that ends at data-in word `j`. -/
def timelineOutput (s : State) (j : Nat) : Word :=
  ascendingSum (Memory.read s.coef) (fun k => timeline s (s.coefLen.toNat - 1 + j - k)) s.coefLen.toNat

/-- R125: the append of the next `n` data words puts them where the timeline has them. -/
theorem afterAppend_take {s : State} {n i : Nat} (hlen : n ≤ s.dataIn.length) (hi : i < s.coefLen.toNat - 1 + n) :
    afterAppend s (s.dataIn.take n) i = timeline s i := by
  rw [afterAppend, timeline, List.length_take_of_le hlen]
  by_cases h : i < s.coefLen.toNat - 1
  · rw [if_neg (by omega), if_pos h]
  · rw [if_pos (by omega), if_neg h, List.getD_eq_getElem?_getD, List.getElem?_take_of_lt (by omega),
      List.getD_eq_getElem?_getD]

/-- R132: `t` is what a legal state `s` becomes by filtering its next `n` data words. -/
structure Filters (n : Nat) (s t : State) : Prop where
  inv : Inv t
  filter : KeepsFilter s t
  emits : Emits ((List.range n).map (timelineOutput s)) s t
  takes : TakesData n s t
  timeline_add : ∀ i, timeline t i = timeline s (n + i)

/-- R125 to R130: a block of 1 to 512 samples filters them. -/
theorem processBlock_filters {s t : State} {n : Nat} (hs : Inv s) (h1 : 1 ≤ n) (h512 : n ≤ 512)
    (hexec : exec (.processBlock n) s = .next t) : Filters n s t := by
  obtain ⟨hlen, hacc⟩ := processBlock_next h1 h512 hexec
  obtain ⟨-, -, hroom, -⟩ := processAccepted_next hacc
  rw [List.length_take_of_le hlen] at hroom
  obtain ⟨t', ys, hexec', hys, hget, hemits, -, -, htakes, hfilter⟩ := processBlockOutputs s n hs h1 h512 hlen hroom
  obtain rfl : t' = t := by rw [hexec'] at hexec; exact Host.Outcome.next.inj hexec
  have hwords : ys = (List.range n).map (timelineOutput s) := by
    refine List.ext_getElem? fun j => ?_
    by_cases hj : j < n
    · rw [hget j hj, List.getElem?_map, List.getElem?_range hj, Option.map_some, timelineOutput]
      exact congrArg some (ascendingSum_congr (fun _ _ => rfl) fun k _ => afterAppend_take hlen (by omega))
    · rw [List.getElem?_eq_none (by omega), List.getElem?_eq_none (by simp; omega)]
  refine ⟨(exec_ends hexec).inv hs, hfilter, hwords ▸ hemits, htakes, fun i => ?_⟩
  rw [timeline, hfilter.2, processBlockHistory s t' n hs h1 h512 hexec i]
  by_cases hi : i < s.coefLen.toNat - 1
  · rw [if_pos hi, if_pos hi, afterAppend_take hlen (by omega)]
  · rw [if_neg hi, htakes.1, timeline, if_neg (by omega), List.getD_eq_getElem?_getD, List.getElem?_drop,
      List.getD_eq_getElem?_getD, show n + i - (s.coefLen.toNat - 1) = n + (i - (s.coefLen.toNat - 1)) by omega]

theorem Filters.refl {s : State} (hs : Inv s) : Filters 0 s s where
  inv := hs
  filter := ⟨rfl, rfl⟩
  emits := emits_nil rfl rfl
  takes := ⟨rfl, rfl⟩
  timeline_add i := by rw [Nat.zero_add]

/-- R134: the outputs after `n` samples are those from sample `n` on. -/
theorem Filters.timelineOutput_add {n : Nat} {s t : State} (h : Filters n s t) (j : Nat) :
    timelineOutput t j = timelineOutput s (n + j) := by
  obtain ⟨hcoef, hlen⟩ := h.filter
  rw [timelineOutput, timelineOutput, hcoef, hlen]
  refine ascendingSum_congr (fun _ _ => rfl) fun k hk => ?_
  rw [h.timeline_add]
  congr 1
  omega

/-- R134: filtering `n` samples and then `m` is filtering `n + m`. -/
theorem Filters.trans {n m : Nat} {s t u : State} (hst : Filters n s t) (htu : Filters m t u) :
    Filters (n + m) s u := by
  obtain ⟨hcoef, hlen⟩ := hst.filter
  obtain ⟨hcoef', hlen'⟩ := htu.filter
  obtain ⟨hout, hroom⟩ := hst.emits
  obtain ⟨hout', hroom'⟩ := htu.emits
  obtain ⟨hdata, hcmd⟩ := hst.takes
  obtain ⟨hdata', hcmd'⟩ := htu.takes
  refine ⟨htu.inv, ⟨hcoef'.trans hcoef, hlen'.trans hlen⟩, ⟨?_, ?_⟩, ⟨?_, hcmd'.trans hcmd⟩, fun i => ?_⟩
  · rw [hout', hout, List.append_assoc, List.range_add, List.map_append, List.map_map,
      funext hst.timelineOutput_add]
    rfl
  · rw [hroom', hroom, Option.map_map]
    simp only [List.length_map, List.length_range, Function.comp_def, Nat.sub_sub]
  · rw [hdata', hdata, List.drop_drop]
  · rw [htu.timeline_add, hst.timeline_add, Nat.add_assoc]

/-- R11: room for `n + m` words is room for `n`. -/
theorem hasRoom_of_hasRoom_add {s : State} {n m : Nat} (h : s.hasRoom (n + m) = true) : s.hasRoom n = true := by
  unfold State.hasRoom at h ⊢
  cases hr : s.outRoom with
  | none => rfl
  | some r => simp only [hr, decide_eq_true_eq] at h ⊢; omega

/-- R11: room for `n + m` words is, once `n` samples are filtered, room for `m`. -/
theorem Filters.hasRoom {n m : Nat} {s t : State} (h : Filters n s t) (hroom : s.hasRoom (n + m) = true) :
    t.hasRoom m = true := by
  unfold State.hasRoom at hroom ⊢
  rw [h.emits.2, List.length_map, List.length_range]
  cases hr : s.outRoom with
  | none => rfl
  | some r => simp only [hr, decide_eq_true_eq, Option.map_some] at hroom ⊢; omega

/-- R134: blocks of any sizes from 1 to 512 complete and filter their samples together. -/
theorem runBlocks_filters {s : State} {sizes : List Nat} (hs : Inv s) (hsizes : ∀ n ∈ sizes, 1 ≤ n ∧ n ≤ 512)
    (hlen : sizes.sum ≤ s.dataIn.length) (hroom : s.hasRoom sizes.sum = true) :
    ∃ t, runBlocks sizes s = .next t ∧ Filters sizes.sum s t := by
  induction sizes generalizing s with
  | nil => exact ⟨s, rfl, .refl hs⟩
  | cons n sizes ih =>
    obtain ⟨⟨h1, h512⟩, hrest⟩ := List.forall_mem_cons.mp hsizes
    rw [List.sum_cons] at hlen hroom ⊢
    obtain ⟨t, hexec⟩ := processBlock_completes hs h1 h512 (by omega) (hasRoom_of_hasRoom_add hroom)
    have hblock := processBlock_filters hs h1 h512 hexec
    obtain ⟨u, hrun, hstream⟩ := ih hblock.inv hrest
      (by rw [hblock.takes.1, List.length_drop]; omega) (hblock.hasRoom hroom)
    refine ⟨u, ?_, hblock.trans hstream⟩
    rw [runBlocks, hexec]
    exact hrun

/-- R132: below `L-1` the timeline is the retained history. -/
theorem timeline_of_lt {s : State} {i : Nat} (hi : i < s.coefLen.toNat - 1) : timeline s i = Memory.read s.hist i :=
  if_pos hi

/-- R131: from `L-1` on the timeline is the data-in channel. -/
theorem timeline_of_le {s : State} {i : Nat} (hi : s.coefLen.toNat - 1 ≤ i) :
    timeline s i = s.dataIn.getD (i - (s.coefLen.toNat - 1)) 0 :=
  if_neg (Nat.not_lt.mpr hi)

/-- R126: output `j` of the next `n` samples stands `j` words behind the earlier outputs. -/
theorem Filters.getElem?_dataOut {n j : Nat} {s t : State} (h : Filters n s t) (hj : j < n) :
    t.dataOut[s.dataOut.length + j]? = some (timelineOutput s j) := by
  rw [h.emits.1, List.getElem?_append_right (Nat.le_add_right _ _), Nat.add_sub_cancel_left, List.getElem?_map,
    List.getElem?_range hj, Option.map_some]

/-- Settles O31: an output from index `L-1` on reads the timeline from `L-1` on, which is the data-in channel. -/
theorem lateOutputsIgnoreHistory : Obligations.LateOutputsIgnoreHistory := by
  intro s s' t t' n hs hs' h1 h512 hcoef hlen hdata hexec hexec' j hj hn
  rw [(processBlock_filters hs h1 h512 hexec).getElem?_dataOut hn,
    (processBlock_filters hs' h1 h512 hexec').getElem?_dataOut hn, timelineOutput, timelineOutput, hcoef, hlen]
  refine congrArg some (ascendingSum_congr (fun _ _ => rfl) fun k hk => ?_)
  rw [timeline_of_le (by omega), timeline_of_le (by rw [hlen]; omega), hdata, hlen]

/-- Settles O33: both ways filter the same `n + m` samples. -/
theorem splittingABlockKeepsOutputs : Obligations.SplittingABlockKeepsOutputs := by
  intro s n m hs h1 hm h512 hlen hroom
  obtain ⟨t₁, hexec₁⟩ := processBlock_completes hs h1 (by omega) (by omega) (hasRoom_of_hasRoom_add hroom)
  have hfirst := processBlock_filters hs h1 (by omega) hexec₁
  obtain ⟨t₂, hexec₂⟩ := processBlock_completes hfirst.inv hm (by omega)
    (by rw [hfirst.takes.1, List.length_drop]; omega) (hfirst.hasRoom hroom)
  have hsplit := hfirst.trans (processBlock_filters hfirst.inv hm (by omega) hexec₂)
  obtain ⟨t, hexec⟩ := processBlock_completes hs (by omega) h512 hlen hroom
  have hwhole := processBlock_filters hs (by omega) h512 hexec
  refine ⟨t₁, t₂, t, hexec₁, hexec₂, hexec, hsplit.emits.1.trans hwhole.emits.1.symm, fun i hi => ?_⟩
  rw [← timeline_of_lt (by rwa [hsplit.filter.2]), ← timeline_of_lt (by rwa [hwhole.filter.2]),
    hsplit.timeline_add, hwhole.timeline_add]

/-- R132: from a silent retained history, output `j` reads the data-in words up to `j` and `+0.0` before them. -/
theorem timelineOutput_of_silent {s : State} (hsilent : ∀ i, i < s.coefLen.toNat - 1 → Memory.read s.hist i = 0)
    (j : Nat) :
    timelineOutput s j =
      ascendingSum (Memory.read s.coef) (fun k => if k ≤ j then s.dataIn.getD (j - k) 0 else 0) s.coefLen.toNat := by
  refine ascendingSum_congr (fun _ _ => rfl) fun k hk => ?_
  by_cases hkj : k ≤ j
  · rw [timeline_of_le (by omega), if_pos hkj]
    congr 1
    omega
  · rw [timeline_of_lt (by omega), hsilent _ (by omega), if_neg hkj]

/-- Settles O34: the blocks filter their samples together, and the timeline before them is silent. -/
theorem streamOutputsDoNotDependOnTheSplit : Obligations.StreamOutputsDoNotDependOnTheSplit := by
  intro s sizes hs hsizes hlen hroom hsilent
  obtain ⟨t, hrun, hstream⟩ := runBlocks_filters hs hsizes hlen hroom
  refine ⟨t, hrun, ?_, fun j hj => ?_⟩
  · rw [hstream.emits.1, funext (timelineOutput_of_silent hsilent)]
  · rw [← timeline_of_lt (by rw [hstream.filter.2]; omega), hstream.timeline_add]
    by_cases hsum : j + 1 ≤ sizes.sum
    · rw [timeline_of_le (by omega), if_pos hsum]
      congr 1
      omega
    · rw [timeline_of_lt (by omega), hsilent _ (by omega), if_neg hsum]

end Sys2Proof.Machine

namespace Sys2Proof.Machine

/-! ### Filtering does not read the status (R144, R164, R186) -/

/-- R144: the two states agree on what filtering reads. -/
structure SameFiltering (s s' : State) : Prop where
  coef : s'.coef = s.coef
  coefLen : s'.coefLen = s.coefLen
  hist : s'.hist = s.hist
  dataIn : s'.dataIn = s.dataIn
  outRoom : s'.outRoom = s.outRoom

/-- R144: the command that leads from `s` to `t` leads from `s'` to a state that agrees with `t`, with the same output
words but for those of GET_STATUS. -/
def Follows (i : Instr) (s s' t : State) : Prop :=
  ∃ t' ys ys', exec i s' = .next t' ∧ SameFiltering t t' ∧
    t.dataOut = s.dataOut ++ ys ∧ t'.dataOut = s'.dataOut ++ ys' ∧ (i ≠ .getStatus → ys' = ys)

theorem SameFiltering.hasRoom {s s' : State} (h : SameFiltering s s') (n : Nat) : s'.hasRoom n = s.hasRoom n := by
  rw [State.hasRoom, State.hasRoom, h.outRoom]

theorem SameFiltering.dropData {s s' : State} (h : SameFiltering s s') (n : Nat) :
    SameFiltering { s with dataIn := s.dataIn.drop n } { s' with dataIn := s'.dataIn.drop n } :=
  { h with dataIn := congrArg (List.drop n) h.dataIn }

/-- R183: rejections leave the states alike. -/
theorem SameFiltering.rejected {s s' : State} (h : SameFiltering s s') (e : CmdErr) (w : CmdWord) :
    SameFiltering (raiseCmdError e w s) (raiseCmdError e w s') := by
  constructor <;> simp [h.coef, h.coefLen, h.hist, h.dataIn, h.outRoom]

/-- A command that emits no word from either state. -/
theorem Follows.silently {i : Instr} {s s' t t' : State} (hexec : exec i s' = .next t')
    (h : SameFiltering t t') (hout : t.dataOut = s.dataOut) (hout' : t'.dataOut = s'.dataOut) :
    Follows i s s' t :=
  ⟨t', [], [], hexec, h, by rw [hout, List.append_nil], by rw [hout', List.append_nil], fun _ => rfl⟩

/-- R103, R121: a command rejected for its count from both states. -/
theorem SameFiltering.follows_of_rejected {i : Instr} {s s' : State} (h : SameFiltering s s') {n : Nat} {e : CmdErr}
    {w : CmdWord} (hexec : exec i s' = .next (raiseCmdError e w { s' with dataIn := s'.dataIn.drop n })) :
    Follows i s s' (raiseCmdError e w { s with dataIn := s.dataIn.drop n }) :=
  .silently hexec ((h.dropData n).rejected e w) (raiseCmdError_dataOut ..) (raiseCmdError_dataOut ..)

/-- R11: as many outputs find the same room from both states. -/
theorem SameFiltering.outputs {s s' t : State} {ys ys' : List Word} (h : SameFiltering s s')
    (hlen : ys'.length = ys.length) (hexec : emitAndComplete ys s = .next t) :
    ∃ t', emitAndComplete ys' s' = .next t' ∧ SameFiltering t t' ∧
      t.dataOut = s.dataOut ++ ys ∧ t'.dataOut = s'.dataOut ++ ys' := by
  obtain ⟨hroom, rfl⟩ := emitAndComplete_next hexec
  refine ⟨_, emitAndComplete_room (by rw [h.hasRoom, hlen, hroom]), { h with outRoom := ?_ }, rfl, rfl⟩
  rw [h.outRoom, hlen]

/-- R102, R103: SET_BULK reads its count and its data words. -/
theorem SameFiltering.follows_setBulk {n : Nat} {s s' t : State} (h : SameFiltering s s')
    (hexec : exec (.setBulk n) s = .next t) : Follows (.setBulk n) s s' t := by
  obtain ⟨hlen, hcases⟩ := execSetBulk_next hexec
  rw [← h.dataIn] at hlen
  obtain ⟨hn, rfl⟩ | ⟨rfl, rfl⟩ | ⟨h1, h512, rfl⟩ := hcases
  · exact h.follows_of_rejected (execSetBulk_tooMany hlen hn)
  · exact h.follows_of_rejected (n := 0) (execSetBulk_zero s')
  · refine .silently (execSetBulk_accepts hlen h1 h512) ⟨?_, rfl, h.hist, ?_, h.outRoom⟩ rfl rfl
    · rw [h.coef, h.dataIn]
    · rw [h.dataIn]

/-- R120, R144: an accepted block reads the filter, the history and its samples. -/
theorem SameFiltering.filtered {xs : List Word} {s s' t : State} (h : SameFiltering s s')
    (hexec : processAccepted xs s = .next t) :
    ∃ t' ys, processAccepted xs s' = .next t' ∧ SameFiltering t t' ∧
      t.dataOut = s.dataOut ++ ys ∧ t'.dataOut = s'.dataOut ++ ys := by
  obtain ⟨hpos, hmax, hroom, rfl⟩ := processAccepted_next hexec
  obtain ⟨t', hexec'⟩ := processAccepted_completes (xs := xs) (s := s') (by rwa [h.coefLen]) (by rwa [h.coefLen])
    (by rwa [h.hasRoom])
  refine ⟨t', _, hexec', ?_, rfl, ?_⟩ <;> obtain ⟨-, -, -, rfl⟩ := processAccepted_next hexec'
  · constructor <;> simp [h.coef, h.coefLen, h.hist, h.dataIn, h.outRoom]
  · simp only [h.coef, h.coefLen, h.hist]

/-- R120 to R122: PROCESS_BLOCK reads its count, its data words, the filter and the history. -/
theorem SameFiltering.follows_processBlock {n : Nat} {s s' t : State} (h : SameFiltering s s')
    (hexec : exec (.processBlock n) s = .next t) : Follows (.processBlock n) s s' t := by
  obtain ⟨hlen, hcases⟩ := execProcessBlock_next hexec
  rw [← h.dataIn] at hlen
  obtain ⟨hn, rfl⟩ | ⟨rfl, rfl⟩ | ⟨h1, h512, hacc⟩ := hcases
  · exact h.follows_of_rejected (execProcessBlock_tooLong hlen hn)
  · exact .silently (emptyBlockIsNoOp s') { h with } rfl rfl
  · obtain ⟨t', ys, hacc', hsame, hout, hout'⟩ := (h.dropData n).filtered hacc
    rw [← h.dataIn] at hacc'
    exact ⟨t', ys, ys, (execProcessBlock_accepts hlen h1 h512).trans hacc', hsame, hout, hout', fun _ => rfl⟩

/-- R161: GET_COEFS reads the filter. -/
theorem SameFiltering.follows_getCoefs {s s' t : State} (h : SameFiltering s s') (hexec : exec .getCoefs s = .next t) :
    Follows .getCoefs s s' t := by
  have hmax : ¬ Config.maxCoeffsLen < s.coefLen.toNat := Nat.not_lt.mpr (execGetCoefs_next hexec).1
  rw [exec, execGetCoefs, if_neg hmax] at hexec
  obtain ⟨t', hexec', hsame, hout, hout'⟩ := h.outputs rfl hexec
  refine ⟨t', _, _, ?_, hsame, hout, hout', fun _ => rfl⟩
  rw [exec, execGetCoefs, h.coefLen, h.coef, if_neg hmax, hexec']

/-- R162: GET_HISTORY reads the history. -/
theorem SameFiltering.follows_getHistory {s s' t : State} (h : SameFiltering s s')
    (hexec : exec .getHistory s = .next t) : Follows .getHistory s s' t := by
  obtain ⟨t', hexec', hsame, hout, hout'⟩ := h.outputs rfl hexec
  refine ⟨t', _, _, ?_, hsame, hout, hout', fun _ => rfl⟩
  rw [exec, execGetHistory, h.hist, hexec']

/-- R163: GET_STATUS emits two words, whatever they are. -/
theorem SameFiltering.follows_getStatus {s s' t : State} (h : SameFiltering s s')
    (hexec : exec .getStatus s = .next t) : Follows .getStatus s s' t := by
  obtain ⟨t', hexec', hsame, hout, hout'⟩ := h.outputs (ys := [statusWord s, s.diagCount])
    (ys' := [statusWord s', s'.diagCount]) rfl hexec
  exact ⟨t', _, _, hexec', hsame, hout, hout', fun hne => absurd rfl hne⟩

/-- R144: from states that agree on what filtering reads, every command leads to such states. -/
theorem SameFiltering.follows {i : Instr} {s s' t : State} (h : SameFiltering s s') (hexec : exec i s = .next t) :
    Follows i s s' t := by
  cases i with
  | nop =>
    rw [execNop_next hexec]
    exact .silently (t' := { s' with lastErr := 0 }) rfl { h with } rfl rfl
  | setScalar =>
    obtain ⟨v, rest, hd, rfl⟩ := execSetScalar_next hexec
    exact .silently (execSetScalar_enough (h.dataIn.trans hd))
      ⟨congrArg (Memory.write · 0 v) h.coef, rfl, h.hist, rfl, h.outRoom⟩ rfl rfl
  | setBulk n => exact h.follows_setBulk hexec
  | processBlock n => exact h.follows_processBlock hexec
  | getCoefs => exact h.follows_getCoefs hexec
  | getHistory => exact h.follows_getHistory hexec
  | getStatus => exact h.follows_getStatus hexec

/-- Settles O37: `SameFiltering.follows`, its fields written out. -/
theorem statusNeverInfluencesFiltering : Obligations.StatusNeverInfluencesFiltering := by
  intro i s s' t hcoef hlen hhist hdata hroom hexec
  obtain ⟨t', ys, ys', hexec', ⟨hcoef', hlen', hhist', hdata', hroom'⟩, houts⟩ :=
    SameFiltering.follows ⟨hcoef, hlen, hhist, hdata, hroom⟩ hexec
  exact ⟨t', ys, ys', hexec', hcoef', hlen', hhist', hdata', hroom', houts⟩

end Sys2Proof.Machine

namespace Sys2Proof.Machine

/-! ### Exact results (R9, R135, R140) -/

/-- R9: a word is its sign and the exponent and fraction below it. -/
theorem packWord_fields (v : Word) : packWord (signBit v) (expField v * 2 ^ 52 + fracField v) = v := by
  have hexp := expField_lt v
  have hfrac := fracField_lt v
  apply BitVec.eq_of_toNat_eq
  rw [packWord_toNat _ _ (by omega), toNat_eq_fields v, Nat.add_assoc]

/-- R9: a finite word holds a significand `q` in units of some `2^d`, in the bits `d * 2^52 + q`. -/
theorem exists_significand {v : Word} (h : isFinite64 v = true) :
    ∃ q d, q < 2 ^ 53 ∧ (d ≠ 0 → 2 ^ 52 ≤ q) ∧ d * 2 ^ 52 + q ≤ infBits ∧ magUnits v = q * 2 ^ d ∧
      packWord (signBit v) (d * 2 ^ 52 + q) = v := by
  have hexp := expField_lt v
  have hfrac := fracField_lt v
  have hfields := packWord_fields v
  simp only [isFinite64, decide_eq_true_eq] at h
  unfold magUnits infBits
  by_cases he : expField v = 0
  · rw [he] at hfields
    exact ⟨fracField v, 0, by omega, by omega, by omega, by rw [if_pos he, pow_zero, mul_one], hfields⟩
  · refine ⟨2 ^ 52 + fracField v, expField v - 1, by omega, by omega, by omega, if_neg he, ?_⟩
    rw [show (expField v - 1) * 2 ^ 52 + (2 ^ 52 + fracField v) = expField v * 2 ^ 52 + fracField v by omega, hfields]

/-- R12: an integer of units drops as many bits as its significand has units. -/
theorem droppedBits_significand {q d den : Nat} (hq : q < 2 ^ 53) (hd : d ≠ 0 → 2 ^ 52 ≤ q) (hden : 0 < den) :
    droppedBits (q * 2 ^ d * den) den = d := by
  rw [droppedBits, Nat.mul_div_cancel _ hden]
  by_cases hd0 : d = 0
  · subst hd0
    rw [pow_zero, mul_one]
    by_cases hq0 : q = 0
    · rw [hq0]; rfl
    · have := (Nat.log2_lt hq0).mpr hq
      omega
  · have hlog : (q * 2 ^ d).log2 = 52 + d := by
      rw [Nat.log2_eq_iff (Nat.mul_ne_zero (by have := hd hd0; omega) (Nat.two_pow_pos d).ne'), pow_add,
        show 52 + d + 1 = 53 + d by omega, pow_add]
      exact ⟨Nat.mul_le_mul_right _ (hd hd0), Nat.mul_lt_mul_of_pos_right hq (Nat.two_pow_pos d)⟩
    omega

/-- R12: a quotient without remainder is not rounded. -/
theorem roundDiv_mul {q k : Nat} (hk : 0 < k) : roundDiv (q * k) k = q := by
  rw [roundDiv, Nat.mul_mod_left, Nat.mul_div_cancel _ hk, if_neg (by omega)]

/-- R12, R140: a value that a word holds is narrowed to the bits of that word. -/
theorem nearestBits_significand {q d den : Nat} (hq : q < 2 ^ 53) (hd : d ≠ 0 → 2 ^ 52 ≤ q)
    (hfin : d * 2 ^ 52 + q ≤ infBits) (hden : 0 < den) : nearestBits (q * 2 ^ d * den) den = d * 2 ^ 52 + q := by
  rw [nearestBits, droppedBits_significand hq hd hden, Nat.mul_assoc, Nat.mul_comm (2 ^ d) den,
    roundDiv_mul (Nat.mul_pos hden (Nat.two_pow_pos d)), Nat.min_eq_left hfin]

/-- R12: narrowing the magnitude of a finite word gives the word back. -/
theorem packWord_nearestBits_magUnits {v : Word} {den : Nat} (h : isFinite64 v = true) (hden : 0 < den) :
    packWord (signBit v) (nearestBits (magUnits v * den) den) = v := by
  obtain ⟨q, d, hq, hd, hfin, hmag, hpack⟩ := exists_significand h
  rw [hmag, nearestBits_significand hq hd hfin hden, hpack]

/-- R9: the value of a word packed from a sign and bits. -/
theorem valueUnits_packWord (neg : Bool) {bits : Nat} (h : bits < 2 ^ 63) :
    valueUnits (packWord neg bits) =
      if neg then -(magUnits (packWord neg bits) : Int) else magUnits (packWord neg bits) := by
  rw [valueUnits, packWord_signBit neg bits h]

/-- Settles O49: a magnitude below `2^53` units is its own significand. -/
theorem smallSumsAreExact : Obligations.SmallSumsAreExact := by
  intro a b ha hb hsmall
  obtain ⟨hneg, hpos⟩ := sumSign_agrees a b
  rw [fadd64_of_finite ha hb]
  generalize valueUnits a + valueUnits b = x at *
  have hq : x.natAbs < 2 ^ 53 := by rw [Int.abs_eq_natAbs] at hsmall; omega
  have hbits : nearestBits x.natAbs 1 = x.natAbs := by
    simpa using nearestBits_significand (d := 0) (den := 1) hq (by omega) (by unfold infBits; omega) one_pos
  have hmag : magUnits (packWord (sumSign a b) x.natAbs) = x.natAbs := by
    simpa using magUnits_packWord_significand (sumSign a b) (d := 0) hq.le (by omega) (by omega)
  rw [hbits, valueUnits_packWord _ (by omega), hmag]
  cases hs : sumSign a b with
  | false => exact Int.natAbs_of_nonneg (hpos hs)
  | true => simp only [if_true]; have := hneg hs; omega

/-- Settles O50: besides `eq_negZero_of_fadd64_eq_negZero`, one concrete sum. -/
theorem sumIsNegZeroOnlyFromNegZeros : Obligations.SumIsNegZeroOnlyFromNegZeros := by
  refine fun a b => ⟨eq_negZero_of_fadd64_eq_negZero, ?_⟩
  rintro ⟨rfl, rfl⟩
  rfl

/-! ### Special values (R138, R139) -/

/-- R12: a product does not depend on the order of its factors. -/
theorem fmul64_comm (a b : Word) : fmul64 a b = fmul64 b a := by
  simp only [fmul64, Bool.or_comm, bne_comm (a := signBit a), Nat.mul_comm]

/-- R138: a NaN factor. -/
theorem fmul64_of_nan {a b : Word} (h : isNaN64 a = true ∨ isNaN64 b = true) : fmul64 a b = canonicalNaN :=
  if_pos (Bool.or_eq_true_iff.mpr h)

/-- R138: a NaN addend. -/
theorem fadd64_of_nan {a b : Word} (h : isNaN64 a = true ∨ isNaN64 b = true) : fadd64 a b = canonicalNaN :=
  if_pos (Bool.or_eq_true_iff.mpr h)

/-- A zero is finite. -/
theorem isFinite64_of_isZero64 {v : Word} (h : isZero64 v = true) : isFinite64 v = true := by
  simp only [isZero64, Bool.and_eq_true, decide_eq_true_eq] at h
  simp [isFinite64, h.1]

/-- An infinity is not finite, so no zero. -/
theorem not_zero_of_inf {v : Word} (h : isInf64 v = true) : isZero64 v = false := by
  by_contra hz
  rw [Bool.not_eq_false] at hz
  simp [(not_nan_not_inf_of_finite (isFinite64_of_isZero64 hz)).2] at h

/-- R138: `inf * 0`. -/
theorem fmul64_inf_zero {a b : Word} (ha : isInf64 a = true) (hb : isZero64 b = true) : fmul64 a b = canonicalNaN := by
  obtain ⟨hnan, -⟩ := not_nan_not_inf_of_finite (isFinite64_of_isZero64 hb)
  simp [fmul64, not_nan_of_inf ha, hnan, ha, hb]

/-- R138: an infinity times a nonzero word. -/
theorem fmul64_inf {a b : Word} (ha : isInf64 a = true) (hnan : isNaN64 b = false) (hb : isZero64 b = false) :
    fmul64 a b = packWord (signBit a != signBit b) infBits := by
  simp [fmul64, not_nan_of_inf ha, hnan, ha, hb, not_zero_of_inf ha]

/-- R138: `inf + (-inf)`. -/
theorem fadd64_inf_inf {a b : Word} (ha : isInf64 a = true) (hb : isInf64 b = true) (hs : signBit a ≠ signBit b) :
    fadd64 a b = canonicalNaN := by
  simp [fadd64, not_nan_of_inf ha, not_nan_of_inf hb, ha, hb, hs]

/-- R138: an infinity plus a finite word. -/
theorem fadd64_inf_finite {a b : Word} (ha : isInf64 a = true) (hb : isFinite64 b = true) :
    fadd64 a b = a ∧ fadd64 b a = a := by
  obtain ⟨hnan, hinf⟩ := not_nan_not_inf_of_finite hb
  simp [fadd64, not_nan_of_inf ha, hnan, ha, hinf]

/-- R9: the two infinities. -/
theorem packWord_infBits (neg : Bool) :
    packWord neg infBits = if neg then 0xFFF0000000000000#64 else 0x7FF0000000000000#64 := by
  cases neg <;> rfl

/-- Settles O48: one case of `fmul64` or `fadd64` for each clause. -/
theorem specialValuesFollowIeee754 : Obligations.SpecialValuesFollowIeee754 := by
  refine fun a b => ⟨fun h => ⟨fmul64_of_nan h, fadd64_of_nan h⟩, fun ha hb => ?_, fun ha hnan hb => ?_,
    fadd64_inf_inf, fadd64_inf_finite, fun h => (fmul64_nan a b).resolve_right (by simp [h]),
    fun h => (fadd64_nan a b).resolve_right (by simp [h])⟩
  · exact ⟨fmul64_inf_zero ha hb, (fmul64_comm b a).trans (fmul64_inf_zero ha hb)⟩
  · refine ⟨?_, fmul64_comm b a⟩
    rw [fmul64_inf ha hnan hb, packWord_infBits]
    cases signBit a <;> cases signBit b <;> rfl

/-! ### The factor 1.0 (R135) -/

/-- `1.0` is `2^1074` units. -/
theorem magUnits_one : magUnits 0x3FF0000000000000#64 = 2 ^ 1074 := by
  rw [magUnits, show expField 0x3FF0000000000000#64 = 1023 from rfl, show fracField 0x3FF0000000000000#64 = 0 from rfl,
    if_neg (by decide), Nat.add_zero, ← pow_add]

/-- R9: an infinity is its sign and the bits of infinity. -/
theorem packWord_signBit_of_inf {v : Word} (h : isInf64 v = true) : packWord (signBit v) infBits = v := by
  simp only [isInf64, Bool.and_eq_true, decide_eq_true_eq] at h
  conv_rhs => rw [← packWord_fields v, h.1, h.2]
  rfl

/-- R9: a word is a NaN, an infinity or finite. -/
theorem isFinite64_of_not_nan_of_not_inf {v : Word} (hnan : isNaN64 v = false) (hinf : isInf64 v = false) :
    isFinite64 v = true := by
  simp only [isNaN64, isInf64, isFinite64, Bool.and_eq_false_iff, decide_eq_false_iff_not, decide_eq_true_eq] at *
  omega

/-- R135: `c * 1.0` is `c`, since `2^1074` is the number of its units in `1.0`. -/
theorem fmul64_one {c : Word} (h : isNaN64 c = false) : fmul64 c 0x3FF0000000000000#64 = c := by
  have hsign : (signBit c != signBit 0x3FF0000000000000#64) = signBit c := Bool.xor_false _
  cases hinf : isInf64 c with
  | true => rw [fmul64_inf hinf rfl rfl, hsign, packWord_signBit_of_inf hinf]
  | false =>
    have hfin := isFinite64_of_not_nan_of_not_inf h hinf
    rw [fmul64_of_finite hfin rfl, hsign, Int.natAbs_mul, natAbs_valueUnits, natAbs_valueUnits, magUnits_one,
      packWord_nearestBits_magUnits hfin (Nat.two_pow_pos _)]

/-- Settles O51: `fmul64_one`, on either side. -/
theorem productWithOneIsExact : Obligations.ProductWithOneIsExact :=
  fun _ h => ⟨fmul64_one h, (fmul64_comm _ _).trans (fmul64_one h)⟩

/-! ### Overflow (R138) -/

/-- R12: rounding reaches an even integer `j` from half a unit below it on. -/
theorem le_roundDiv_iff {m k j : Nat} (hk : 0 < k) (hj : j % 2 = 0) (hpos : 0 < j) :
    j ≤ roundDiv m k ↔ (2 * j - 1) * k ≤ 2 * m := by
  obtain ⟨hcases, heven⟩ := roundDiv_cases m k
  have hlt := Nat.mod_lt m hk
  have hm : 2 * m = 2 * (m / k) * k + 2 * (m % k) := by
    conv_lhs => rw [← Nat.div_add_mod m k]
    ring
  rcases lt_trichotomy (m / k + 1) j with h | rfl | h
  · have hle : (2 * (m / k) + 3) * k ≤ (2 * j - 1) * k := Nat.mul_le_mul_right k (by omega)
    rw [Nat.add_mul] at hle
    omega
  · rw [show 2 * (m / k + 1) - 1 = 2 * (m / k) + 1 by omega, hm, Nat.add_mul]
    omega
  · have hle : (2 * j - 1) * k ≤ 2 * (m / k) * k := Nat.mul_le_mul_right k (by omega)
    omega

/-- R138: the largest finite value and half a unit in its last place, in units of 2^-1074. -/
def overflowBound : Nat := (2 ^ 54 - 1) * 2 ^ 2044

/-- R138: narrowing gives an infinity exactly from `overflowBound` on: there the last place is `2^2045` units, and a
significand of `2^53` of them carries into the exponent field of an infinity. -/
theorem nearestBits_eq_infBits_iff {num den : Nat} (hden : 0 < den) :
    nearestBits num den = infBits ↔ overflowBound * den ≤ num := by
  obtain ⟨hhi, hlo⟩ := significand_bounds num den
  obtain ⟨hmin, hmax⟩ := roundDiv_bounds num (den * 2 ^ droppedBits num den)
  have hk : ∀ d, 0 < den * 2 ^ d := fun d => Nat.mul_pos hden (Nat.two_pow_pos d)
  have hbound : overflowBound * den = (2 ^ 54 - 1) * (den * 2 ^ 2044) := by
    rw [overflowBound, Nat.mul_assoc, Nat.mul_comm (2 ^ 2044)]
  have hmono : ∀ {d e : Nat}, d ≤ e → den * 2 ^ d ≤ den * 2 ^ e := fun h =>
    Nat.mul_le_mul_left den (Nat.pow_le_pow_right two_pos h)
  rw [nearestBits, min_eq_right_iff, hbound, infBits]
  generalize droppedBits num den = d at *
  rcases lt_trichotomy d 2045 with hd | rfl | hd
  · have hnum := (Nat.div_lt_iff_lt_mul (hk d)).mp hhi
    have hle := hmono (show d ≤ 2044 by omega)
    omega
  · have hcarry : 2 ^ 53 ≤ roundDiv num (den * 2 ^ 2045) ↔ (2 * 2 ^ 53 - 1) * (den * 2 ^ 2045) ≤ 2 * num :=
      le_roundDiv_iff (hk 2045) rfl (Nat.two_pow_pos 53)
    have hdouble : den * 2 ^ 2045 = 2 * (den * 2 ^ 2044) := by
      rw [pow_succ 2 2044, ← Nat.mul_assoc, Nat.mul_comm _ 2]
    have hbits : 2047 * 2 ^ 52 ≤ 2045 * 2 ^ 52 + roundDiv num (den * 2 ^ 2045) ↔
        2 ^ 53 ≤ roundDiv num (den * 2 ^ 2045) := by omega
    rw [hbits, hcarry, hdouble]
    omega
  · have hfull := hlo (by omega)
    have hnum := (Nat.le_div_iff_mul_le (hk d)).mp hfull
    have hle := hmono (show 2046 ≤ d by omega)
    have hfour : den * 2 ^ 2046 = 2 ^ 2 * (den * 2 ^ 2044) := by
      rw [pow_add 2 2044 2, ← Nat.mul_assoc, Nat.mul_comm _ (2 ^ 2)]
    omega

theorem overflowBound_pos : 0 < overflowBound := by
  unfold overflowBound
  positivity

theorem cast_overflowBound : (overflowBound : Int) = (2 ^ 54 - 1) * 2 ^ 2044 := by
  rw [overflowBound, Nat.cast_mul, Nat.cast_pow]
  rfl

/-- R9: bits below those of an infinity make a finite word. -/
theorem isFinite64_packWord (neg : Bool) {bits : Nat} (h : bits < infBits) : isFinite64 (packWord neg bits) = true := by
  rw [isFinite64, packWord_expField neg bits (h.trans infBits_lt), decide_eq_true_eq]
  unfold infBits at h
  omega

/-- R138: a word narrowed from `x / den` with the sign of `x` is finite below `overflowBound` and the infinity of the
sign of `x` from there on. -/
theorem signed_narrowed_word_overflow {w : Word} {neg : Bool} {x : Int} {den : Nat}
    (hw : w = packWord neg (nearestBits x.natAbs den)) (hden : 0 < den) (hneg : neg = true → x ≤ 0)
    (hpos : neg = false → 0 ≤ x) :
    (|x| < overflowBound * den → isFinite64 w = true) ∧
      (overflowBound * den ≤ |x| → w = if x < 0 then 0xFFF0000000000000#64 else 0x7FF0000000000000#64) := by
  have hinf : nearestBits x.natAbs den = infBits ↔ (overflowBound * den : Int) ≤ |x| := by
    rw [nearestBits_eq_infBits_iff hden, Int.abs_eq_natAbs]
    exact_mod_cast Iff.rfl
  rw [hw]
  refine ⟨fun hlt => isFinite64_packWord neg ((nearestBits_le _ _).lt_of_ne ?_), fun hle => ?_⟩
  · exact fun h => absurd (hinf.mp h) (not_le.mpr hlt)
  · have hbig : 0 < overflowBound * den := Nat.mul_pos overflowBound_pos hden
    have hne : x ≠ 0 := abs_pos.mp (lt_of_lt_of_le (by exact_mod_cast hbig) hle)
    rw [hinf.mpr hle, packWord_infBits]
    cases hs : neg with
    | false => rw [if_neg (not_lt.mpr (hpos hs))]; rfl
    | true => rw [if_pos ((hneg hs).lt_of_ne hne)]; rfl

/-- Settles O46: a sum is one narrowing of the exact sum, in units of 2^-1074. -/
theorem sumOverflowsToInfinity : Obligations.SumOverflowsToInfinity := by
  intro a b ha hb
  obtain ⟨hneg, hpos⟩ := sumSign_agrees a b
  have hover := signed_narrowed_word_overflow (fadd64_of_finite ha hb) one_pos hneg hpos
  rwa [Nat.cast_one, mul_one, cast_overflowBound] at hover

/-- Settles O47: a product is one narrowing of the exact product, in units of 2^-2148. -/
theorem productOverflowsToInfinity : Obligations.ProductOverflowsToInfinity := by
  intro a b ha hb
  obtain ⟨hneg, hpos⟩ := productSign_agrees a b
  have hover := signed_narrowed_word_overflow (fmul64_of_finite ha hb) (by positivity) hneg hpos
  rwa [Nat.cast_pow, Nat.cast_ofNat, cast_overflowBound, mul_assoc, ← pow_add] at hover

/-! ### Sums with a zero (R141) -/

/-- R12: a sum of finite words does not depend on the order of its addends. -/
theorem fadd64_comm_of_finite {a b : Word} (ha : isFinite64 a = true) (hb : isFinite64 b = true) :
    fadd64 a b = fadd64 b a := by
  rw [fadd64_of_finite ha hb, fadd64_of_finite hb ha, sumSign, sumSign, Int.add_comm, Bool.and_comm]

/-- R141: a zero added to a finite word other than `-0.0` leaves it as it is. -/
theorem fadd64_zero {a z : Word} (ha : isFinite64 a = true) (hne : a ≠ negZero) (hz : isZero64 z = true) :
    fadd64 a z = a := by
  have hzero : valueUnits z = 0 := by
    have := natAbs_valueUnits z
    rw [magUnits_eq_zero.mpr hz] at this
    omega
  have hsign : sumSign a z = signBit a := by
    have hmag : signBit a = true → magUnits a ≠ 0 := fun hs h => hne (eq_negZero hs (magUnits_eq_zero.mp h))
    rw [sumSign, hzero, Int.add_zero]
    cases hs : signBit a with
    | false => simp [valueUnits, hs]
    | true => simp [valueUnits, hs, hmag hs, Nat.pos_of_ne_zero (hmag hs)]
  rw [fadd64_of_finite ha (isFinite64_of_isZero64 hz), hsign, hzero, Int.add_zero, natAbs_valueUnits,
    ← Nat.mul_one (magUnits a), packWord_nearestBits_magUnits ha one_pos]

end Sys2Proof.Machine

namespace Sys2Proof.Machine

/-! ### The impulse response (R135) -/

/-- R127: the ascending sum adds its last product last. -/
theorem ascendingSum_succ (c x : Nat → Word) (L : Nat) :
    ascendingSum c x (L + 1) = fadd64 (ascendingSum c x L) (fmul64 (c L) (x L)) := by
  rw [ascendingSum, List.range_succ, List.foldl_append]
  rfl

/-- R140: zero is narrowed to zero. -/
theorem nearestBits_zero {den : Nat} (hden : 0 < den) : nearestBits 0 den = 0 := by
  simpa using nearestBits_significand (q := 0) (d := 0) (by decide) nofun (Nat.zero_le _) hden

/-- R12: a finite word times `+0.0` is a zero. -/
theorem isZero64_fmul64_zero {c : Word} (h : isFinite64 c = true) : isZero64 (fmul64 c 0) = true := by
  rw [fmul64_of_finite h rfl, show valueUnits 0 = 0 from rfl, Int.mul_zero, Int.natAbs_zero,
    nearestBits_zero (by positivity)]
  cases signBit c != signBit 0 <;> rfl

/-- R141: `+0.0` plus a finite word is that word, `+0.0` for `-0.0`. -/
theorem fadd64_posZero {v : Word} (h : isFinite64 v = true) : fadd64 0 v = if v ≠ negZero then v else 0 := by
  by_cases hv : v = negZero
  · rw [hv]; rfl
  · rw [fadd64_comm_of_finite rfl h, fadd64_zero h hv rfl, if_pos hv]

/-- R135: the ascending sum over the coefficients and one sample `1.0` among samples `+0.0`. -/
theorem ascendingSum_impulse {c : Nat → Word} (j : Nat) {L : Nat} (hfin : ∀ k, k < L → isFinite64 (c k) = true) :
    ascendingSum c (fun k => if k = j then 0x3FF0000000000000#64 else 0) L =
      if j < L ∧ c j ≠ negZero then c j else 0 := by
  induction L with
  | zero => rfl
  | succ L ih =>
    have hL := hfin L (Nat.lt_succ_self L)
    rw [ascendingSum_succ, ih fun k hk => hfin k (Nat.lt_succ_of_lt hk)]
    by_cases hj : L = j
    · subst hj
      rw [if_pos rfl, if_neg (by simp), fmul64_one (not_nan_not_inf_of_finite hL).1, fadd64_posZero hL]
      simp
    · have hlt : j < L + 1 ↔ j < L := by omega
      simp only [if_neg hj, hlt]
      refine fadd64_zero ?_ ?_ (isZero64_fmul64_zero hL)
      · split
        · exact hfin j (by omega)
        · rfl
      · split
        · exact (‹j < L ∧ c j ≠ negZero›).2
        · decide

/-- The data words `1.0, +0.0, …` read as the impulse, newest sample first. -/
theorem getD_impulse {n j k : Nat} (rest : List Word) (hj : j < n + 1) :
    (if k ≤ j then (0x3FF0000000000000#64 :: (List.replicate n 0#64 ++ rest)).getD (j - k) 0 else 0) =
      if k = j then 0x3FF0000000000000#64 else 0 := by
  rcases lt_trichotomy k j with h | rfl | h
  · obtain ⟨i, hi⟩ : ∃ i, j - k = i + 1 := ⟨j - k - 1, by omega⟩
    rw [if_pos h.le, if_neg h.ne, hi, List.getD_cons_succ, List.getD_append _ _ _ _ (by simp; omega),
      List.getD_replicate _ (by omega)]
    rfl
  · simp
  · rw [if_neg (Nat.not_le.mpr h), if_neg h.ne']

/-- Settles O35: from silence, output `j` is the ascending sum over the impulse at `k = j`. -/
theorem impulseGivesTheCoefficients : Obligations.ImpulseGivesTheCoefficients := by
  intro s n rest hs hn hroom hsilent hfin hdata
  obtain ⟨t, hexec⟩ := processBlock_completes hs (by omega) hn (by simp [hdata]) hroom
  refine ⟨t, hexec, ?_⟩
  rw [(processBlock_filters hs (by omega) hn hexec).emits.1]
  refine congrArg _ (List.map_congr_left fun j hj => ?_)
  simp only [timelineOutput_of_silent hsilent, hdata, getD_impulse rest (List.mem_range.mp hj)]
  exact ascendingSum_impulse j hfin

end Sys2Proof.Machine

namespace Sys2Proof.Machine

/-! ### Control and readback (R160 to R164) -/

/-- Settles O38: a command that only completes writes `LAST_ERR` and no other field. -/
theorem nopOnlyClearsLastErr : Obligations.NopOnlyClearsLastErr := fun _ => rfl

/-- R11, R30: with room for them the words go out, and nothing else changes but `LAST_ERR`. -/
theorem emitAndComplete_completes {ys : List Word} {s : State} (h : s.hasRoom ys.length = true) :
    ∃ t, emitAndComplete ys s = .next t ∧ Emits ys s t ∧ EndsNormally s t ∧ KeepsFilter s t ∧ KeepsHistory s t ∧
      TakesData 0 s t :=
  ⟨_, emitAndComplete_room h, ⟨rfl, rfl⟩, ⟨rfl, rfl, rfl, rfl, rfl⟩, ⟨rfl, rfl⟩, ⟨rfl, rfl, rfl⟩, ⟨rfl, rfl⟩⟩

/-- The first `n` words of a RAM in order, as GET_COEFS and GET_HISTORY emit them. -/
theorem getElem?_map_read_range {m : Memory} {n k : Nat} (hk : k < n) :
    ((List.range n).map (Memory.read m))[k]? = some (Memory.read m k) := by
  rw [List.getElem?_map, List.getElem?_range hk, Option.map_some]

theorem length_map_read_range (m : Memory) (n : Nat) : ((List.range n).map (Memory.read m)).length = n := by
  rw [List.length_map, List.length_range]

/-- Settles O39: at a legal length the command emits the first `COEF_LEN` words of `COEF`. -/
theorem getCoefsEmitsTheFilter : Obligations.GetCoefsEmitsTheFilter := by
  intro s hs hroom
  have hlen := length_map_read_range s.coef s.coefLen.toNat
  obtain ⟨t, hemit, hends⟩ := emitAndComplete_completes (hlen.symm ▸ hroom)
  exact ⟨t, _, (if_neg (Nat.not_lt.mpr hs.lenMax)).trans hemit, hlen, fun k => getElem?_map_read_range, hends⟩

/-- Settles O40: the command emits the first 1023 words of `HIST`. -/
theorem getHistoryEmitsTheBuffer : Obligations.GetHistoryEmitsTheBuffer := by
  intro s hroom
  have hlen := length_map_read_range s.hist 1023
  obtain ⟨t, hemit, hends⟩ := emitAndComplete_completes (hlen.symm ▸ hroom)
  exact ⟨t, _, hemit, hlen, fun i => getElem?_map_read_range, hends⟩

/-- R33: the status word as a number. -/
theorem toNat_statusWord (s : State) :
    (statusWord s).toNat = s.coefLen.toNat * 2 ^ 16 + s.sticky.toNat * 2 ^ 8 + s.lastErr.toNat := by
  have hlen := s.coefLen.isLt
  have hsticky := s.sticky.isLt
  have herr := s.lastErr.isLt
  rw [statusWord, BitVec.toNat_setWidth, BitVec.toNat_append, BitVec.toNat_append, BitVec.toNat_append,
    ← Nat.shiftLeft_add_eq_or_of_lt hsticky, ← Nat.shiftLeft_add_eq_or_of_lt herr]
  simp only [Nat.shiftLeft_eq, BitVec.ofNat_eq_ofNat, BitVec.toNat_zero, Nat.or_zero]
  omega

/-- R33: a field of the status word as a number. -/
theorem toNat_statusWord_field (s : State) (start len : Nat) :
    ((statusWord s).extractLsb' start len).toNat =
      (s.coefLen.toNat * 2 ^ 16 + s.sticky.toNat * 2 ^ 8 + s.lastErr.toNat) / 2 ^ start % 2 ^ len := by
  rw [BitVec.extractLsb'_toNat, toNat_statusWord, Nat.shiftRight_eq_div_pow]

/-- R33: `LAST_ERR` in bits 3:0, `STICKY` in bits 15:8, `COEF_LEN` in bits 25:16, and 0 in the others. -/
theorem statusWord_fields (s : State) :
    (statusWord s).extractLsb' 0 4 = s.lastErr ∧ (statusWord s).extractLsb' 4 4 = 0 ∧
      (statusWord s).extractLsb' 8 8 = s.sticky ∧ (statusWord s).extractLsb' 16 10 = s.coefLen ∧
      (statusWord s).extractLsb' 26 38 = 0 := by
  have hlen := s.coefLen.isLt
  have hsticky := s.sticky.isLt
  have herr := s.lastErr.isLt
  simp only [← BitVec.toNat_inj, toNat_statusWord_field, BitVec.ofNat_eq_ofNat, BitVec.toNat_zero]
  omega

/-- Settles O41: the command emits the status word and `DIAG_COUNT`, for which there is room. -/
theorem getStatusEmitsTheStatus : Obligations.GetStatusEmitsTheStatus := by
  intro s hroom
  obtain ⟨t, hemit, hemits, hends⟩ := emitAndComplete_completes (ys := [statusWord s, s.diagCount]) hroom
  obtain ⟨herr, hzero, hsticky, hlen, hhigh⟩ := statusWord_fields s
  exact ⟨t, statusWord s, hemit, hemits, herr, hzero, hsticky, hlen, hhigh, hends⟩

/-- R164: NOP and the readbacks end in no other way than with their output words. -/
theorem readback_next {i : Instr} {s t : State} (hi : i ∈ [Instr.nop, .getCoefs, .getHistory, .getStatus])
    (h : exec i s = .next t) :
    ∃ ys : List Word,
      t = { s with dataOut := s.dataOut ++ ys, outRoom := s.outRoom.map (· - ys.length), lastErr := 0 } := by
  cases exec_ends h with
  | rejected he =>
    have hnone : ∀ i ∈ [Instr.nop, .getCoefs, .getHistory, .getStatus], countErr i = none := by decide
    exact absurd ((hnone i hi).symm.trans he) nofun
  | setFilter hset => rcases hset with rfl | ⟨rfl, rfl⟩ <;> simp at hi
  | filtered => simp at hi
  | onlyOutputs _ ys => exact ⟨ys, rfl⟩

/-- Settles O42: the state after a readback agrees with the one before on all that filtering reads. -/
theorem readbacksChangeOnlyLastErr : Obligations.ReadbacksChangeOnlyLastErr := by
  intro i s t hi hexec
  obtain ⟨ys, ht⟩ := readback_next hi hexec
  refine ⟨by rw [ht], fun c u hall hc hnext => ?_⟩
  have hsame : SameFiltering s t := by
    rw [ht]
    exact ⟨rfl, rfl, rfl, rfl, by simp [hall]⟩
  obtain ⟨u', zs, zs', hexec', -, hout, hout', hwords⟩ := hsame.follows hnext
  exact ⟨u', zs, hexec', hout, hwords hc ▸ hout'⟩

end Sys2Proof.Machine

namespace Sys2Proof.Machine

/-! ### Rejected commands (R182, R188) -/

/-- R182, R183: a command that leaves a code was rejected for its count, after taking its data words. -/
theorem Ends.rejects {i : Instr} {s t : State} (h : Ends s i t) (herr : t.lastErr ≠ 0) :
    ∃ e, countErr i = some e ∧ EndsRejected e (encode i) i.dataInCount s t := by
  cases h with
  | rejected he => exact ⟨_, he, raiseCmdError_rejects _ _ { s with dataIn := s.dataIn.drop i.dataInCount }⟩
  | setFilter => exact absurd rfl herr
  | filtered h1 h2 hn ht =>
    obtain ⟨-, -, -, rfl⟩ := processAccepted_next ht
    exact absurd rfl herr
  | onlyOutputs => exact absurd rfl herr

/-- R72, R181: a command rejected for its count has a code of at most 3 and takes COUNT data words. -/
theorem code_le_and_dataInCount_of_countErr {i : Instr} {e : CmdErr} (h : countErr i = some e) :
    e.code ≤ 3 ∧ i.dataInCount = i.countValue := by
  cases i with
  | setBulk n =>
    simp only [countErr] at h
    split_ifs at h <;> cases h <;> exact ⟨by decide, rfl⟩
  | processBlock n =>
    simp only [countErr] at h
    split_ifs at h
    cases h
    exact ⟨by decide, rfl⟩
  | nop => cases h
  | setScalar => cases h
  | getCoefs => cases h
  | getHistory => cases h
  | getStatus => cases h

/-- R76: a command word that decode rejects gets code 4 or 5. -/
theorem four_le_code_decodeErr (e : DecodeReject) : 4 ≤ (decodeErr e).code := by cases e <;> decide

/-- R182, R183: a step that leaves a code rejects its command word, after COUNT data words where decode accepts the
word and before any where it does not. -/
theorem step_rejects {s t : State} {w : CmdWord} {rest : List CmdWord} (hc : s.cmdIn = w :: rest)
    (hstep : step s = .next t) (herr : t.lastErr ≠ 0) :
    ∃ e n, EndsRejected e w n { s with cmdIn := rest } t ∧ (e.code ≤ 3 ∧ n = countField w ∨ 4 ≤ e.code ∧ n = 0) := by
  cases hd : decode w with
  | ok i =>
    obtain ⟨e, he, hends⟩ := (exec_ends ((step_of_decode_ok hc hd).symm.trans hstep)).rejects herr
    obtain ⟨hcode, hcount⟩ := code_le_and_dataInCount_of_countErr he
    rw [(decodedWordIsTheCommandsWord w i hd).2] at hends
    exact ⟨e, _, hends, .inl ⟨hcode, hcount.trans (fields_of_decode_ok hd).2.2⟩⟩
  | error e =>
    obtain ⟨t', hstep', hends⟩ := step_rejects_of_decode_error hc hd
    cases hstep'.symm.trans hstep
    exact ⟨_, 0, hends, .inr ⟨four_le_code_decodeErr e, rfl⟩⟩

/-- Settles O13: a rejection has the frame of `EndsRejected`, and its code says how many data words it took. -/
theorem rejectionsArePrecise : Obligations.RejectionsArePrecise := by
  intro s t w rest hc hstep herr
  obtain ⟨e, n, ⟨hcode, -, -, -, hfilter, hhistory, hemits, hdata, -⟩, htook⟩ := step_rejects hc hstep herr
  rw [← hcode] at htook
  refine ⟨hfilter, hhistory, hemits, fun hle => ?_, fun hge => ?_⟩
  · obtain rfl : n = countField w := by omega
    exact hdata
  · obtain rfl : n = 0 := by omega
    exact hdata

/-! ### Events per command (R188) -/

/-- R30: a command that passes its count check leaves no code. -/
theorem Ends.lastErr_eq_zero {i : Instr} {s t : State} (h : Ends s i t) (hnone : countErr i = none) :
    t.lastErr = 0 := by
  apply BitVec.eq_of_toNat_eq
  rw [h.lastErr, hnone]
  rfl

/-- R142, R143: the diagnostic offers no event or one DENORMAL. -/
theorem diagnose_posts (x : Word) (s : State) :
    PostsNone s (diagnose x s) ∨ ∃ p, PostsOne ⟨.denormal, p⟩ s (diagnose x s) := by
  rcases diagnose_cases x s with ⟨-, -, hposts, -⟩ | ⟨-, hsame⟩
  · exact .inr ⟨_, hposts⟩
  · rw [hsame]
    exact .inl ⟨rfl, rfl, rfl⟩

/-- R188: an accepted command offers no event, or it is a PROCESS_BLOCK that offers one DENORMAL. -/
theorem Ends.posts_of_accepted {i : Instr} {s t : State} (h : Ends s i t) (hzero : t.lastErr = 0) :
    PostsNone s t ∨ (∃ n, i = .processBlock n) ∧ ∃ p, PostsOne ⟨.denormal, p⟩ s t := by
  cases h with
  | rejected he => exact absurd hzero (raiseCmdError_code_and_keepsFilter ..).1
  | setFilter => exact .inl ⟨rfl, rfl, rfl⟩
  | filtered h1 h2 hn ht =>
    obtain ⟨-, -, -, rfl⟩ := processAccepted_next ht
    exact (diagnose_posts _ { s with dataIn := s.dataIn.drop _ }).imp_right fun hposts => ⟨⟨_, rfl⟩, hposts⟩
  | onlyOutputs => exact .inl ⟨rfl, rfl, rfl⟩

/-- Settles O15: by what an accepted command offers where there is no code, and by the rejection where there is one. -/
theorem eventsPerCommand : Obligations.EventsPerCommand := by
  intro s t w rest hc hstep
  have hends {i : Instr} (hd : decode w = .ok i) : Ends { s with cmdIn := rest } i t :=
    exec_ends ((step_of_decode_ok hc hd).symm.trans hstep)
  have hsilent {i : Instr} (hd : decode w = .ok i) (hblock : ∀ n, i ≠ .processBlock n) (hzero : t.lastErr = 0) :
      PostsNone s t :=
    ((hends hd).posts_of_accepted hzero).resolve_right fun h => h.1.elim hblock
  refine ⟨fun i hi hd => ?_, fun n hd => hsilent hd nofun, fun n hd hzero => ?_, fun herr => ?_⟩
  · have hnone : ∀ i ∈ [Instr.nop, .setScalar, .getCoefs, .getHistory, .getStatus], countErr i = none := by decide
    refine hsilent hd ?_ ((hends hd).lastErr_eq_zero (hnone i hi))
    rintro n rfl
    simp at hi
  · exact ((hends hd).posts_of_accepted hzero).imp_right And.right
  · obtain ⟨e, n, ⟨-, -, -, hposts, -⟩, -⟩ := step_rejects hc hstep herr
    exact ⟨_, hposts⟩

/-! ### The host's actions (R187, R210, R215, R217) -/

/-- R187: taking events takes only appended ones and leaves no more in the channel. -/
theorem Inv.hostTakeEvents {s : State} (hs : Inv s) (k : Nat) : Inv (hostTakeEvents k s) :=
  { hs with
    takenLe := Nat.add_le_of_le_sub' hs.takenLe (recordsTaken_le k s.evtHeld)
    heldLe := (Nat.sub_le_sub_left (Nat.le_add_right ..) _).trans hs.heldLe }

/-- Settles O56: the invariant speaks of no input channel and no output room, and the reset input gives the state
after reset but for these and `evtDraws`. -/
theorem hostActionsKeepInvariant : Obligations.HostActionsKeepInvariant := fun s hs =>
  ⟨fun w data => hs.inputs (s.cmdIn ++ [w]) (s.dataIn ++ data), hs.hostTakeEvents, fun _ => { hs with },
    fun _ _ => { resetSatisfiesInvariant with }⟩

/-! ### The open outcome of an event (R186) -/

/-- R7, R186: a host that takes every record and lets the block find room gets the offered event. -/
theorem offerEvent_delivered (kd : EventKind) (p : BitVec 64) (s : State) :
    (offerEvent s.evtHeld false kd p s).events = s.events ++ [⟨kd, p⟩] ∧
      (offerEvent s.evtHeld false kd p s).sticky = s.sticky := by
  rcases offerEvent_cases s.evtHeld false kd p s with ⟨-, -, hdelivered⟩ | ⟨hfull | hfull, -⟩
  · exact hdelivered
  · rw [recordsTaken_eq_min, min_self, Nat.sub_self] at hfull
    exact absurd hfull (Nat.not_succ_le_zero _)
  · cases hfull

/-- Settles O58: a host that takes every record delivers the event, one that leaves the channel full drops it. -/
theorem everyEventMayBeDeliveredOrDropped : Obligations.EveryEventMayBeDeliveredOrDropped := by
  intro kd p s
  obtain ⟨hevents, hsticky⟩ := offerEvent_full 0 kd p s
  refine ⟨⟨s.evtHeld, false, offerEvent_delivered kd p s⟩, ⟨0, true, hevents, fun b => ?_⟩, _, _, rfl⟩
  rw [hsticky, setStickyBit_getLsbD _ _ _ (by decide)]

end Sys2Proof.Machine

namespace Sys2Proof.Machine

/-! ### A placed command (R213, R215) -/

/-- R70: the 32 bits of a command word are the command word. -/
theorem tableCmdWord_toNat (w : CmdWord) : tableCmdWord 32 w.toNat = w := by
  rw [tableCmdWord, Nat.mod_eq_of_lt w.isLt, BitVec.ofNat_toNat, BitVec.setWidth_eq]

/-- R215: where the table gives the command word only, every data word is zero. -/
theorem tableDataWords_eq_replicate (w k : Nat) : tableDataWords 32 w k = List.replicate k 0 := by
  have hzero (j : Nat) : (w % 2 ^ 32) >>> (32 + 64 * j) = 0 :=
    Nat.shiftRight_eq_zero _ _ ((Nat.mod_lt w (by decide)).trans_le (Nat.pow_le_pow_right (by decide) (by omega)))
  simp only [tableDataWords, hzero, List.map_const', List.length_range]
  rfl

/-- R71, R72: a word that decodes takes the data words of its command. -/
theorem dataWordsTaken_of_decode_ok {w : CmdWord} {i : Instr} (hd : decode w = .ok i) :
    dataWordsTaken w = i.dataInCount := by
  rw [dataWordsTaken, hd]

/-- R215: the state in which a command that decodes has been placed. -/
theorem withFetchWord_of_decode_ok {w : CmdWord} {i : Instr} (s : State) (hd : decode w = .ok i) :
    s.withFetchWord 32 w.toNat = placeCommand w (List.replicate i.dataInCount 0) s := by
  rw [State.withFetchWord, tableCmdWord_toNat, dataWordsTaken_of_decode_ok hd, tableDataWords_eq_replicate]

/-- Settles O8: the placed word is at the head of the command channel, and taking it gives back the other commands. -/
theorem placedCommandRunsNext : Obligations.PlacedCommandRunsNext := by
  intro s w i hd
  rw [withFetchWord_of_decode_ok s hd]
  exact step_of_decode_ok (placeCommand_cmdIn ..) hd

/-! ### Silence (R141, R213, SRC-1) -/

/-- R127, R141: the ascending sum over finite coefficients and samples `+0.0` is `+0.0`: each product is a zero. -/
theorem ascendingSum_silence {c x : Nat → Word} {L : Nat} (hfin : ∀ k, k < L → isFinite64 (c k) = true)
    (hx : ∀ k, k < L → x k = 0) : ascendingSum c x L = 0 := by
  induction L with
  | zero => rfl
  | succ L ih =>
    have hlast := isZero64_fmul64_zero (hfin L (Nat.lt_succ_self L))
    rw [ascendingSum_succ, ih (fun k hk => hfin k (Nat.lt_succ_of_lt hk)) fun k hk => hx k (Nat.lt_succ_of_lt hk),
      hx L (Nat.lt_succ_self L)]
    exact fadd64_zero rfl (by decide) hlast

/-- Settles O36: from silence, every sample that an output of the silent block reads is `+0.0`. -/
theorem silenceGivesSilence : Obligations.SilenceGivesSilence := by
  intro s n rest hs h1 h512 hroom hsilent hfin hdata
  obtain ⟨t, hexec⟩ := processBlock_completes hs h1 h512 (by simp [hdata]) hroom
  refine ⟨t, hexec, ?_⟩
  have hzero : ∀ j ∈ List.range n, timelineOutput s j = 0 := fun j hj => by
    have hjn := List.mem_range.mp hj
    rw [timelineOutput_of_silent hsilent]
    refine ascendingSum_silence hfin fun k _ => ?_
    split
    · rw [hdata, List.getD_append _ _ _ _ (by simp; omega), List.getD_replicate _ (by omega)]
      rfl
    · rfl
  rw [(processBlock_filters hs h1 h512 hexec).emits.1, List.map_congr_left hzero, List.map_const', List.length_range]
  rfl

/-! ### The reset input (R210 to R212) -/

/-- Settles O53: the reset input writes each of these fields, and with no event left the channel holds none. -/
theorem resetInputRestoresReset : Obligations.ResetInputRestoresReset := fun _ _ _ =>
  ⟨rfl, rfl, rfl, rfl, rfl, rfl, rfl, rfl, rfl, rfl, rfl⟩

end Sys2Proof.Machine
